-- ==== Sys2Proof/Word.lean ====
section
/-! DEFINITION. The words the block exchanges with the outside: bytes, command words, response words, TX symbols, and the
item that arrives on or leaves by one port (spec/00_scope.md R8, spec/30_encoding.md R45, R49, R51, R52). -/

namespace Sys2Proof

/-- Every entry of `PB` and every byte of a wire frame (spec/20_memory.md R30). -/
abbrev Byte := BitVec 8

/-- A command word `CW` on CMD (spec/30_encoding.md R45). -/
abbrev CmdWord := BitVec 72

/-- A response word `RW` on RSP: `CODE` in bits 18:16, `DATA` in bits 15:0 (spec/30_encoding.md R49). -/
abbrev RspWord := BitVec 19

/-- A TX symbol `TS`: `last` in bit 8, the byte in bits 7:0 (spec/30_encoding.md R51). -/
abbrev TxSym := BitVec 9

/-- What stands for one row of the opcode table in bits: a command word, a TX symbol, the event on the one-bit RESET
port, or the bytes of a wire frame in the order of transmission. -/
inductive PortWord
  | command (w : CmdWord)
  | symbol (y : TxSym)
  | event (e : BitVec 1)
  | frame (bytes : List Byte)
  deriving DecidableEq, Repr

end Sys2Proof
end

