-- ==== Sys2Proof/Config.lean ====
section
/-! DEFINITION. The parameters of the block (spec/00_scope.md R5): constants of an instance. What the source fixes is a
constant here; every other parameter is a field of `Config`, with its default in `Config.defaults`. -/

namespace Sys2Proof

/-- The parameter `ScaleFn` of spec/00_scope.md R5, any function from the operand to an integer, as plain data: the default of
spec/42_duty_command.md R102 (the product rounded to binary64, then truncated), the alternative that R102 and
92_eei_decisions.md D16 name (the exact product truncated), or a table of operand patterns with their integers, an unlisted
pattern as in the default. The operands are finitely many, so a table gives every function (log 3). -/
inductive ScaleReading
  | roundedProduct
  | exactProduct
  | table (rows : List (BitVec 64 × Int))
  deriving DecidableEq, Repr

/-- The two readings that form the product, for which R103 states its properties. -/
def ScaleReading.isProduct : ScaleReading → Bool
  | .roundedProduct => true
  | .exactProduct => true
  | .table _ => false

/-- Every integer of the table has a 32-bit pattern, -2^31 <= z < 2^31 (spec/00_scope.md R160; log 4). -/
def ScaleReading.fits : ScaleReading → Bool
  | .roundedProduct => true
  | .exactProduct => true
  | .table rows => rows.all (fun row => decide (-(2 ^ 31) ≤ row.2) && decide (row.2 < 2 ^ 31))

/-- The parameters that the source leaves open (spec/00_scope.md R5). `maxPayload` is at most 255 by its type (D14). -/
structure Config where
  crcInit : BitVec 16
  crcXorout : BitVec 16
  startByte : Byte
  endByte : Byte
  idSetDuty : Byte
  dutyScale : Nat
  maxPayload : Fin 256
  scaleFn : ScaleReading
  deriving DecidableEq, Repr

/-- `CRC_WIDTH`, fixed by the source (spec/00_scope.md R5). -/
def Config.crcWidth : Nat := 16

/-- `CRC_POLY`, fixed by the source (spec/00_scope.md R5). -/
def Config.crcPoly : BitVec 16 := 0x1021#16

/-- The default values of spec/00_scope.md R5. PRESUMED (log 2): the spec marks them as general knowledge, not in the
source. -/
def Config.defaults : Config where
  crcInit := 0x0000#16
  crcXorout := 0x0000#16
  startByte := 0x02#8
  endByte := 0x03#8
  idSetDuty := 0x05#8
  dutyScale := 100000
  maxPayload := 255
  scaleFn := .roundedProduct

/-- The parameter values the spec's rules are stated for: `DUTY_SCALE` is a positive integer (R5), and DEDUCED (log 4) it
is below 2^31 and the integers of a `ScaleFn` table fit 32 bits, so that `tc32` of every scaled value is defined (R160). -/
def Config.wf (c : Config) : Bool := decide (0 < c.dutyScale) && decide (c.dutyScale < 2 ^ 31) && c.scaleFn.fits

end Sys2Proof
end

