-- ==== Sys2Proof/Syntax.lean ====
section
/-! DEFINITION. The rows of spec/opcode_table.json, one constructor each. -/

namespace Sys2Proof

/-- One constructor per row of the opcode table: the nine commands (spec/30_encoding.md R47), the step TX.EMIT with the
fields of the symbol it emits (spec/41_framer.md R90, R51), the event RESET (spec/70_reset_and_hazards.md R140) and the two
wire-frame formats with their fields (spec/30_encoding.md R52, R54). -/
inductive Instr
  | crcClr
  | crcUpd (b : Byte)
  | crcRd
  | frmBegin
  | frmPush (b : Byte)
  | frmSend
  | frmAbort
  | cmdDuty (d : BitVec 64)
  | stRd
  | txEmit (last : Bool) (b : Byte)
  | reset
  | frameSetDuty (d : BitVec 32) (c : BitVec 16)
  | frameW (p : List Byte) (c : BitVec 16)
  deriving DecidableEq, Repr

/-- The row's mnemonic (spec/30_encoding.md R47, R57 and spec/opcode_table.json). -/
def Instr.mnemonic : Instr → String
  | .crcClr => "CRC.CLR"
  | .crcUpd _ => "CRC.UPD"
  | .crcRd => "CRC.RD"
  | .frmBegin => "FRM.BEGIN"
  | .frmPush _ => "FRM.PUSH"
  | .frmSend => "FRM.SEND"
  | .frmAbort => "FRM.ABORT"
  | .cmdDuty _ => "CMD.DUTY"
  | .stRd => "ST.RD"
  | .txEmit _ _ => "TX.EMIT"
  | .reset => "RESET"
  | .frameSetDuty _ _ => "FRAME.SET_DUTY"
  | .frameW _ _ => "FRAME.W"

/-- The nine commands, what the HOST can issue (spec/30_encoding.md R47: TX.EMIT and RESET "are not commands"). -/
def Instr.isCommand : Instr → Bool
  | .crcClr => true
  | .crcUpd _ => true
  | .crcRd => true
  | .frmBegin => true
  | .frmPush _ => true
  | .frmSend => true
  | .frmAbort => true
  | .cmdDuty _ => true
  | .stRd => true
  | .txEmit _ _ => false
  | .reset => false
  | .frameSetDuty _ _ => false
  | .frameW _ _ => false

end Sys2Proof
end

