-- ==== Sys2Proof/Machine/Operands.lean ====
section
/-! DEFINITION. Operand forms and byte orders: fields of a command word (spec/30_encoding.md R45, R46), splitting words into
bytes (spec/20_memory.md R32, R33, spec/00_scope.md R160), and reading the binary64 operand of CMD.DUTY as a number
(spec/42_duty_command.md R105, R101). -/

namespace Sys2Proof.Machine

/-- `OPC = CW[71:64]` (R45). -/
def opcodeField (w : CmdWord) : BitVec 8 := w.extractLsb' 64 8

/-- `OPD = CW[63:0]` (R45). -/
def operandField (w : CmdWord) : BitVec 64 := w.extractLsb' 0 64

/-- The byte operand `OPD[7:0]` of format B (R46). -/
def byteOperand (opd : BitVec 64) : Byte := opd.extractLsb' 0 8

/-- The bits of format B that must be 0, `OPD[63:8]` (R46). -/
def byteOperandZeros (opd : BitVec 64) : BitVec 56 := opd.extractLsb' 8 56

/-- `v[15:8]` of a 16-bit value. -/
def hiByte (v : BitVec 16) : Byte := v.extractLsb' 8 8

/-- `v[7:0]` of a 16-bit value. -/
def loByte (v : BitVec 16) : Byte := v.extractLsb' 0 8

/-- `be32(n)`: the four bytes of a 32-bit value, most significant first (R160, R32). -/
def be32 (n : BitVec 32) : List Byte :=
  [n.extractLsb' 24 8, n.extractLsb' 16 8, n.extractLsb' 8 8, n.extractLsb' 0 8]

/-- `tc32(z)`: the 32-bit two's complement pattern of `z`, for -2^31 <= z < 2^31 (R160). -/
def tc32 (z : Int) : BitVec 32 := BitVec.ofInt 32 z

/-- The TX symbol `last || b` (R51). -/
def txSymbol (last : Bool) (b : Byte) : TxSym := BitVec.ofBool last ++ b

/-! ## The binary64 operand (R105) -/

/-- The five cases of R105. -/
inductive F64Class
  | zero
  | subnormal
  | normal
  | infinity
  | nan
  deriving DecidableEq, Repr

/-- `s = d[63]` (R105). -/
def f64Sign (d : BitVec 64) : Bool := d.getLsbD 63

/-- `e = d[62:52]` (R105). -/
def f64Exp (d : BitVec 64) : BitVec 11 := d.extractLsb' 52 11

/-- `f = d[51:0]` (R105). -/
def f64Frac (d : BitVec 64) : BitVec 52 := d.extractLsb' 0 52

/-- The case of R105 that a pattern falls under. -/
def f64Class (d : BitVec 64) : F64Class :=
  if f64Exp d = 0#11 then (if f64Frac d = 0#52 then .zero else .subnormal)
  else if f64Exp d = 2047#11 then (if f64Frac d = 0#52 then .infinity else .nan)
  else .normal

/-- An exact number `(-1)^neg * mant * 2^exp`: every finite `val(d)` of R105 and every product of R102 has this form. -/
structure Dyad where
  neg : Bool
  mant : Nat
  exp : Int
  deriving DecidableEq, Repr

/-- The rational number a `Dyad` stands for. -/
def Dyad.val (x : Dyad) : Rat := (if x.neg then -1 else 1) * (x.mant : Rat) * (2 : Rat) ^ x.exp

/-- `val(d)` of a finite pattern, by the zero, subnormal and normal rows of R105. -/
def f64Dyad (d : BitVec 64) : Dyad :=
  if f64Exp d = 0#11 then { neg := f64Sign d, mant := (f64Frac d).toNat, exp := -1074 }
  else { neg := f64Sign d, mant := 2 ^ 52 + (f64Frac d).toNat, exp := ((f64Exp d).toNat : Int) - 1075 }

/-- `val(d)` as a rational number; an infinity or a NaN has none (R105). -/
def f64Val (d : BitVec 64) : Option Rat :=
  match f64Class d with
  | .infinity => none
  | .nan => none
  | .zero => some (f64Dyad d).val
  | .subnormal => some (f64Dyad d).val
  | .normal => some (f64Dyad d).val

/-- The range check on the bit pattern: `d[62:0] > 0x3FF0000000000000` (R101). -/
def outOfRange (d : BitVec 64) : Bool := BitVec.ult 0x3FF0000000000000#63 (d.extractLsb' 0 63)

end Sys2Proof.Machine
end

