-- ==== Sys2Proof/Machine/Crc16.lean ====
section
/-! DEFINITION. The CRC-16 generator as functions: crc_step, crc16_raw, crc16 (spec/40_crc16.md R65, R67), and the bit-serial
and table forms of R66 and R68 (d). -/

namespace Sys2Proof.Machine

/-- One shift step of R65: shift left, dropping bit 15 after it has been tested, and add `CRC_POLY` where it was 1. -/
def crcShift (c : BitVec 16) : BitVec 16 :=
  if c.getLsbD 15 then (c <<< 1) ^^^ Config.crcPoly else c <<< 1

/-- `k` shift steps. -/
def crcShifts : Nat → BitVec 16 → BitVec 16
  | 0, c => c
  | k + 1, c => crcShifts k (crcShift c)

/-- `crc_step(c, b)`: the byte into bits 15:8, then eight shift steps (R65). -/
def crcStep (c : BitVec 16) (b : Byte) : BitVec 16 := crcShifts 8 (c ^^^ (b.setWidth 16 <<< 8))

/-- Folding the bytes of `m` into an accumulator, first byte first (R67). -/
def crcFold (c : BitVec 16) : List Byte → BitVec 16
  | [] => c
  | b :: m => crcFold (crcStep c b) m

/-- `crc16_raw(m)` (R67). -/
def crc16Raw (cfg : Config) (m : List Byte) : BitVec 16 := crcFold cfg.crcInit m

/-- `crc16(m)` (R67). -/
def crc16 (cfg : Config) (m : List Byte) : BitVec 16 := crc16Raw cfg m ^^^ cfg.crcXorout

/-- The table form of R68 (d): `((c << 8) mod 2^16) XOR T[c[15:8] XOR b]` with `T[i] = crc_step(0, i)`. -/
def crcTableStep (c : BitVec 16) (b : Byte) : BitVec 16 := (c <<< 8) ^^^ crcStep 0#16 (hiByte c ^^^ b)

/-- The bits of a byte, bit 7 first (R66). -/
def byteBits (b : Byte) : List Bool :=
  [b.getLsbD 7, b.getLsbD 6, b.getLsbD 5, b.getLsbD 4, b.getLsbD 3, b.getLsbD 2, b.getLsbD 1, b.getLsbD 0]

/-- One step of the bit-serial form of R66: shift one message bit in, and XOR `CRC_POLY` if the bit shifted out was 1. -/
def crcSerialBit (c : BitVec 16) (x : Bool) : BitVec 16 :=
  let shifted := (c <<< 1) ||| (BitVec.ofBool x).setWidth 16
  if c.getLsbD 15 then shifted ^^^ Config.crcPoly else shifted

/-- The bit-serial form of R66: the message bits, then sixteen zero bits, through a register of zero. -/
def crcSerial (m : List Byte) : BitVec 16 :=
  (m.flatMap byteBits ++ List.replicate 16 false).foldl crcSerialBit 0#16

end Sys2Proof.Machine
end

