-- ==== Sys2Proof/WellFormed.lean ====
section
/-! DEFINITION. Which terms of `Instr` the spec admits. The commands' operands are words of their full width, so every
command is admitted; the TX symbol and the wire frames carry checks. -/

namespace Sys2Proof

/-- The payload of the set-duty frame: five bytes, the first `ID_SET_DUTY` (spec/30_encoding.md R54). -/
def isSetDutyPayload (cfg : Config) : List Byte → Bool
  | [i, _, _, _, _] => i == cfg.idSetDuty
  | _ => false

/-- The checks of the spec on an instruction: a symbol with `last = 1` is the end byte (spec/30_encoding.md R51); a wire
frame's checksum is the CRC of its frame payload (R53); its payload has 1 to 255 bytes (R52, R55 (d)); the five-byte payload
that begins with `ID_SET_DUTY` is written as FRAME.SET_DUTY (R54; DESIGN CHOICE, log 13). -/
def Instr.wf (cfg : Config) : Instr → Bool
  | .crcClr => true
  | .crcUpd _ => true
  | .crcRd => true
  | .frmBegin => true
  | .frmPush _ => true
  | .frmSend => true
  | .frmAbort => true
  | .cmdDuty _ => true
  | .stRd => true
  | .txEmit last b => !last || b == cfg.endByte
  | .reset => true
  | .frameSetDuty d c => c == Machine.crc16 cfg (cfg.idSetDuty :: Machine.be32 d)
  | .frameW p c =>
    decide (1 ≤ p.length) && decide (p.length ≤ 255) && !isSetDutyPayload cfg p && c == Machine.crc16 cfg p

end Sys2Proof
end

