-- ==== Sys2Proof/Decode.lean ====
section
/-! DEFINITION. The decoder, total on every word of every port and rejecting by name, and after it the encoder, both from
the encodings of spec/30_encoding.md (R45 to R55) and the table spec/opcode_table.json. -/

namespace Sys2Proof

/-- Why a word is no instruction. A command word is rejected by the first two (R55 (a)), a level 0 on RESET by the third,
a byte string that is no wire frame by the rest (R52). -/
inductive DecodeError
  | unassignedOpcode
  | operandBitsNotZero
  | noResetEvent
  | frameTooShort
  | startByteWrong
  | lengthByteWrong
  | endByteWrong
  deriving DecidableEq, Repr

/-- One row of the opcode map of R47: `match` and `mask` as the table writes them. -/
structure OpcodeRow where
  mnemonic : String
  pattern : CmdWord
  mask : CmdWord
  deriving DecidableEq, Repr

/-- The opcode map, as R47 lists it. -/
def opcodeMap : List OpcodeRow :=
  [⟨"CRC.CLR", 0x010000000000000000#72, 0xFFFFFFFFFFFFFFFFFF#72⟩,
   ⟨"CRC.UPD", 0x020000000000000000#72, 0xFFFFFFFFFFFFFFFF00#72⟩,
   ⟨"CRC.RD", 0x030000000000000000#72, 0xFFFFFFFFFFFFFFFFFF#72⟩,
   ⟨"FRM.BEGIN", 0x100000000000000000#72, 0xFFFFFFFFFFFFFFFFFF#72⟩,
   ⟨"FRM.PUSH", 0x110000000000000000#72, 0xFFFFFFFFFFFFFFFF00#72⟩,
   ⟨"FRM.SEND", 0x120000000000000000#72, 0xFFFFFFFFFFFFFFFFFF#72⟩,
   ⟨"FRM.ABORT", 0x130000000000000000#72, 0xFFFFFFFFFFFFFFFFFF#72⟩,
   ⟨"CMD.DUTY", 0x200000000000000000#72, 0xFF0000000000000000#72⟩,
   ⟨"ST.RD", 0x300000000000000000#72, 0xFFFFFFFFFFFFFFFFFF#72⟩]

/-- A command word selects a row when `(CW AND mask) = match` (R47). -/
def OpcodeRow.selects (r : OpcodeRow) (w : CmdWord) : Bool := (w &&& r.mask) == r.pattern

/-- Format N: the operand field must be 0 (R46). -/
def decodeFormatN (opd : BitVec 64) (i : Instr) : Except DecodeError Instr :=
  if opd = 0#64 then .ok i else .error .operandBitsNotZero

/-- Format B: the byte in bits 7:0, the rest must be 0 (R46). -/
def decodeFormatB (opd : BitVec 64) (f : Byte → Instr) : Except DecodeError Instr :=
  if Machine.byteOperandZeros opd = 0#56 then .ok (f (Machine.byteOperand opd)) else .error .operandBitsNotZero

/-- Decoding a command word by its opcode (R45 to R47); every other word is rejected (R55 (a)). -/
def decodeCommand (w : CmdWord) : Except DecodeError Instr :=
  let opc := Machine.opcodeField w
  let opd := Machine.operandField w
  if opc = 0x01#8 then decodeFormatN opd .crcClr
  else if opc = 0x02#8 then decodeFormatB opd .crcUpd
  else if opc = 0x03#8 then decodeFormatN opd .crcRd
  else if opc = 0x10#8 then decodeFormatN opd .frmBegin
  else if opc = 0x11#8 then decodeFormatB opd .frmPush
  else if opc = 0x12#8 then decodeFormatN opd .frmSend
  else if opc = 0x13#8 then decodeFormatN opd .frmAbort
  else if opc = 0x20#8 then .ok (.cmdDuty opd)
  else if opc = 0x30#8 then decodeFormatN opd .stRd
  else .error .unassignedOpcode

/-- A TX symbol as the step that emits it (R51 and the table's row TX.EMIT). -/
def decodeSymbol (y : TxSym) : Instr := .txEmit (y.getLsbD 8) (y.extractLsb' 0 8)

/-- The event on the RESET port: the table's row is the bit 1 (log 20). -/
def decodeEvent (e : BitVec 1) : Except DecodeError Instr :=
  if e = 1#1 then .ok .reset else .error .noResetEvent

/-- The fields of a wire frame with payload `p` and checksum `c`: the set-duty frame where the payload is that of R54, else
the general format of R52 (DESIGN CHOICE, log 13). -/
def frameInstr (cfg : Config) (p : List Byte) (c : BitVec 16) : Instr :=
  match p with
  | [i, b3, b2, b1, b0] => if i = cfg.idSetDuty then .frameSetDuty (b3 ++ b2 ++ b1 ++ b0) c else .frameW p c
  | _ => .frameW p c

/-- Reading a byte string as a wire frame: start byte, length byte, payload, checksum high then low byte, end byte
(R52, R33). The checksum field is read, not checked: the block decodes nothing (R73; log 16). -/
def decodeFrame (cfg : Config) : List Byte → Except DecodeError Instr
  | start :: n :: rest =>
    if start ≠ cfg.startByte then .error .startByteWrong
    else if n = 0#8 ∨ rest.length ≠ n.toNat + 3 then .error .lengthByteWrong
    else
      match rest.drop n.toNat with
      | [hi, lo, stop] =>
        if stop ≠ cfg.endByte then .error .endByteWrong else .ok (frameInstr cfg (rest.take n.toNat) (hi ++ lo))
      | _ => .error .lengthByteWrong
  | _ => .error .frameTooShort

/-- The decoder: total on every word of every port. -/
def decode (cfg : Config) : PortWord → Except DecodeError Instr
  | .command w => decodeCommand w
  | .symbol y => .ok (decodeSymbol y)
  | .event e => decodeEvent e
  | .frame bytes => decodeFrame cfg bytes

/-! ## The encoder -/

/-- The word of a format N command (R46). -/
def encodeFormatN (opc : BitVec 8) : CmdWord := opc ++ 0#64

/-- The word of a format B command (R46). -/
def encodeFormatB (opc : BitVec 8) (b : Byte) : CmdWord := opc ++ (0#56 ++ b)

/-- The word of a format D command (R46). -/
def encodeFormatD (opc : BitVec 8) (d : BitVec 64) : CmdWord := opc ++ d

/-- The bytes of a wire frame in the order of transmission, from its payload and its checksum field (R52, R33). -/
def wireFrame (cfg : Config) (p : List Byte) (c : BitVec 16) : List Byte :=
  cfg.startByte :: BitVec.ofNat 8 p.length :: (p ++ [Machine.hiByte c, Machine.loByte c, cfg.endByte])

/-- The words of an instruction, from the encoding tables of R46, R47, R51, R52 and R54. -/
def encode (cfg : Config) : Instr → PortWord
  | .crcClr => .command (encodeFormatN 0x01#8)
  | .crcUpd b => .command (encodeFormatB 0x02#8 b)
  | .crcRd => .command (encodeFormatN 0x03#8)
  | .frmBegin => .command (encodeFormatN 0x10#8)
  | .frmPush b => .command (encodeFormatB 0x11#8 b)
  | .frmSend => .command (encodeFormatN 0x12#8)
  | .frmAbort => .command (encodeFormatN 0x13#8)
  | .cmdDuty d => .command (encodeFormatD 0x20#8 d)
  | .stRd => .command (encodeFormatN 0x30#8)
  | .txEmit last b => .symbol (Machine.txSymbol last b)
  | .reset => .event 1#1
  | .frameSetDuty d c => .frame (wireFrame cfg (cfg.idSetDuty :: Machine.be32 d) c)
  | .frameW p c => .frame (wireFrame cfg p c)

/-! ## The host's numbering of an instruction's bits -/

/-- The `k` bytes of the number `w`, most significant byte first: the table writes a wire frame with its first transmitted
byte in the top bits (spec/opcode_table.json, row FRAME.SET_DUTY). -/
def bytesOfNumber : Nat → Nat → List Byte
  | 0, _ => []
  | k + 1, w => BitVec.ofNat 8 (w >>> (8 * k)) :: bytesOfNumber k w

/-- The port and word that the number `w` of `nbits` bits stands for: the table's widths are 1 bit (RESET), 9 bits
(TX.EMIT), 72 bits (the commands), 48 and 80 bits (the wire frames), each in whole bytes (DESIGN CHOICE, log 14). -/
def tableWord (nbits w : Nat) : Option PortWord :=
  if nbits ≤ 8 then (if w < 2 then some (.event (BitVec.ofNat 1 w)) else none)
  else if nbits ≤ 16 then (if w < 512 then some (.symbol (BitVec.ofNat 9 w)) else none)
  else if nbits = 72 then (if w < 2 ^ 72 then some (.command (BitVec.ofNat 72 w)) else none)
  else some (.frame (bytesOfNumber (nbits / 8) w))

/-- The instruction the decoder reads from an instruction whose bits are `w`. -/
def decodeTableWord (nbits w : Nat) : Option Instr :=
  match tableWord nbits w with
  | none => none
  | some pw =>
    match decode Config.defaults pw with
    | .ok i => some i
    | .error _ => none

end Sys2Proof
end

