-- ==== Sys2Proof/Machine/State.lean ====
section
/-! DEFINITION. The state: the six registers of spec/10_state.md R10, the parameters of the instance, and the four ports as
lists. Why a step can stop. The reset state (R20). -/

namespace Sys2Proof.Machine

/-- The phase `PH` (spec/10_state.md R13): three values, so that 3 cannot be expressed. -/
inductive Phase
  | idle
  | build
  | send
  deriving DecidableEq, Repr

/-- The errors a command step can end in (spec/60_exceptions.md R120). -/
inductive Err
  | outOfRange
  | len
  | seq
  | illegal
  deriving DecidableEq, Repr

/-- Which agent moves next, one constructor for each of the three kinds of step (spec/00_scope.md R6, R7): the CORE executes the
command the HOST offers; the SINK takes a byte and the TXU performs TX.EMIT; ENV raises RESET. -/
inductive Turn
  | command
  | emit
  | reset
  deriving DecidableEq, Repr

/-- The entries of `PB` that hold a value, as (index, byte) pairs with strictly rising indexes. An unlisted index holds no
value (spec/10_state.md R16: "a model must not give them one"). -/
abbrev Memory := List Host.Cell

/-- The state. `crc`, `ph`, `pn`, `pb`, `fi`, `ef` are the block's six items (spec/10_state.md R10). `cfg` is the constant
parameters of the instance (spec/00_scope.md R5; log 1). `cmd` and `turns` are what the outside is going to do (log 5);
`accepted`, `rsp` and `tx` are what a model observes of a run (R9), oldest first (log 7). -/
structure State where
  cfg : Config
  crc : BitVec 16
  ph : Phase
  pn : BitVec 8
  pb : Memory
  fi : BitVec 9
  ef : BitVec 4
  cmd : List CmdWord
  turns : List Turn
  accepted : List CmdWord
  rsp : List RspWord
  tx : List TxSym
  deriving DecidableEq, Repr

/-- Faults: the machine stops. -/
inductive Fault
  /-- Raised by TX.EMIT and by the two wire-frame formats where `frame_byte` is not defined at the wire index: `FI` above
  `PN + 4`, or an entry of `PB` that holds no value (spec/41_framer.md R81, spec/10_state.md R16). Met in no reachable state.
  Safe: the model stops (log 10). -/
  | frameByteUndefined
  deriving DecidableEq, Repr

/-- Refusals: the instruction is not carried out and no state changes. -/
inductive Refusal
  /-- An instruction that has no meaning yet; raised only by an arm of exec. Safe. -/
  | notModelled (mnemonic : String)
  /-- A command other than ST.RD while `PH = SEND`: a disabled step (spec/60_exceptions.md R126). Raised by every meaning of
  such a command; step gives the turn to the next agent instead. Safe (log 8). -/
  | held
  /-- TX.EMIT while `PH` is not SEND: a disabled step (spec/41_framer.md R90). Safe (log 8). -/
  | nothingToEmit
  /-- TX.EMIT named with a symbol other than the one the block emits next (log 11). Safe. -/
  | symbolNotNext
  /-- A wire frame named that is not the frame frozen in the registers (log 12). Raised by FRAME.W and FRAME.SET_DUTY. Safe. -/
  | frameNotInFlight
  /-- No agent that has a turn can move: the list of turns holds no enabled step (log 6). Raised by step only. Safe. -/
  | noStepEnabled
  deriving DecidableEq, Repr

/-- What a meaning answers. -/
abbrev Result := Host.Outcome State Fault Refusal

/-- The state after RESET (spec/10_state.md R20), parameters at their defaults, nothing offered and nothing observed yet
(log 17). -/
def State.reset : State where
  cfg := Config.defaults
  crc := Config.defaults.crcInit
  ph := .idle
  pn := 0#8
  pb := []
  fi := 0#9
  ef := 0#4
  cmd := []
  turns := []
  accepted := []
  rsp := []
  tx := []

end Sys2Proof.Machine
end

