-- ==== Sys2Proof/Machine/Flags.lean ====
section
/-! DEFINITION. The sticky flags `EF`, the error codes, the response word and the status word (spec/10_state.md R15, R17,
spec/30_encoding.md R49, R50, spec/60_exceptions.md R120). -/

namespace Sys2Proof.Machine

/-- The numeric code of an error (R120, R50); 0 is OK. -/
def Err.code : Err → BitVec 3
  | .outOfRange => 1#3
  | .len => 2#3
  | .seq => 3#3
  | .illegal => 4#3

/-- The code of a successful command (R50). -/
def okCode : BitVec 3 := 0#3

/-- The flag of `EF` that an error sets: bit 0 `E_OOR`, 1 `E_LEN`, 2 `E_SEQ`, 3 `E_ILL` (R15). -/
def Err.flag : Err → BitVec 4
  | .outOfRange => 0b0001#4
  | .len => 0b0010#4
  | .seq => 0b0100#4
  | .illegal => 0b1000#4

/-- `EF[bit of E] <- 1`, the other flags as they were (R15, R124). -/
def setFlag (e : Err) (ef : BitVec 4) : BitVec 4 := ef ||| e.flag

/-- Whether the flag of an error is set. -/
def flagSet (e : Err) (ef : BitVec 4) : Bool := (ef &&& e.flag) != 0#4

/-- The response word `code || data` (R49). -/
def rspWord (code : BitVec 3) (data : BitVec 16) : RspWord := code ++ data

/-- The 2-bit value of a phase (R13). -/
def Phase.bits : Phase → BitVec 2
  | .idle => 0#2
  | .build => 1#2
  | .send => 2#2

/-- `ST = zext_16(PH) XOR (zext_16(EF) << 2) XOR (zext_16(PN) << 8)` (R17, R115). -/
def statusWord (s : State) : BitVec 16 :=
  s.ph.bits.setWidth 16 ^^^ (s.ef.setWidth 16 <<< 2) ^^^ (s.pn.setWidth 16 <<< 8)

end Sys2Proof.Machine
end

