-- ==== Sys2Proof/Machine/Ops.lean ====
section
/-! DEFINITION. The shared operations: the payload buffer, writing the registers, responding and raising an error, the
acceptance and phase checks of a command step, the wire-frame view and the emission of one symbol. -/

namespace Sys2Proof.Machine

/-! ## The payload buffer (spec/10_state.md R16) -/

/-- `PB[a]`, where the entry holds a value (R160, R16). -/
def Memory.read (a : Nat) : Memory → Option Byte
  | [] => none
  | (k, v) :: m => if a = k then some v else Memory.read a m

/-- `PB[a] <- v` (R160). -/
def Memory.write (a : Nat) (v : Byte) : Memory → Memory
  | [] => [(a, v)]
  | (k, x) :: m =>
    if a < k then (a, v) :: (k, x) :: m
    else if a = k then (a, v) :: m
    else (k, x) :: Memory.write a v m

/-- `PB[a], PB[a+1], ... <- bytes`. -/
def Memory.writeBytes (a : Nat) : List Byte → Memory → Memory
  | [], m => m
  | b :: bs, m => Memory.writeBytes (a + 1) bs (Memory.write a b m)

/-- The entries below `n`: what still holds a value when `PN` becomes `n` (R16). -/
def Memory.below (n : Nat) (m : Memory) : Memory := m.filter (fun cell => decide (cell.1 < n))

/-- The canonical form: indexes strictly rising from `lo` and inside the index range 0 to 254 (R16). -/
def Memory.wfFrom (lo : Nat) : Memory → Bool
  | [] => true
  | (k, _) :: m => decide (lo ≤ k) && decide (k < 255) && Memory.wfFrom (k + 1) m

/-- The canonical form of the payload buffer. -/
def Memory.wf (m : Memory) : Bool := Memory.wfFrom 0 m

/-! ## Writing the registers -/

/-- `PN <- n`: the entries of `PB` at and above `n` hold no value any more (R16; log 9). -/
def State.setPn (n : BitVec 8) (s : State) : State := { s with pn := n, pb := s.pb.below n.toNat }

/-- `PB[PN] <- b` and `PN <- PN + 1` (R84). -/
def State.appendByte (b : Byte) (s : State) : State :=
  State.setPn (s.pn + 1#8) { s with pb := s.pb.write s.pn.toNat b }

/-- `PB[0..k-1] <- p` and `PN <- k` for `k` bytes (R106). -/
def State.loadPayload (p : List Byte) (s : State) : State :=
  State.setPn (BitVec.ofNat 8 p.length) { s with pb := Memory.writeBytes 0 p s.pb }

/-- The frame payload held, `PB[0..PN-1]`. -/
def State.payload (s : State) : List Byte := (List.range s.pn.toNat).filterMap (fun a => s.pb.read a)

/-! ## Ending a command step (spec/00_scope.md R160, spec/60_exceptions.md R124) -/

/-- `respond(code, data)`. -/
def State.respond (code : BitVec 3) (data : BitVec 16) (s : State) : State :=
  { s with rsp := s.rsp ++ [rspWord code data] }

/-- `respond(OK, 0x0000)`. -/
def State.respondOk (s : State) : State := s.respond okCode 0#16

/-- `raise E`: set the sticky flag, respond with the code, change nothing else (R124). -/
def State.raise (e : Err) (s : State) : State :=
  State.respond e.code 0#16 { s with ef := setFlag e s.ef }

/-! ## The checks of a command step (spec/30_encoding.md R48) -/

/-- Step 1 of R48, for a command other than ST.RD: held while `PH = SEND` (R126). -/
def whenAccepted (s : State) (run : State → Result) : Result :=
  match s.ph with
  | .send => .refused .held
  | .idle => run s
  | .build => run s

/-- Step 4 of R48: `raise SEQ` where the phase is not in the row's "legal in phase" set. -/
def whenLegal (legal : List Phase) (s : State) (run : State → State) : Result :=
  if s.ph ∈ legal then .next (run s) else .next (s.raise .seq)

/-- A command other than ST.RD and CMD.DUTY: acceptance, then phase, then its own rule. -/
def commandStep (legal : List Phase) (s : State) (run : State → State) : Result :=
  whenAccepted s (fun t => whenLegal legal t run)

/-! ## The wire frame in the registers (spec/41_framer.md R81) -/

/-- `crc_out = CRC XOR CRC_XOROUT` (R33, R81). -/
def State.crcOut (s : State) : BitVec 16 := s.crc ^^^ s.cfg.crcXorout

/-- `frame_byte(i)` for 0 <= i <= PN + 4; none above that, and none where the entry of `PB` holds no value (R81, R16). -/
def State.frameByte (s : State) (i : Nat) : Option Byte :=
  if i = 0 then some s.cfg.startByte
  else if i = 1 then some s.pn
  else if i ≤ s.pn.toNat + 1 then s.pb.read (i - 2)
  else if i = s.pn.toNat + 2 then some (hiByte s.crcOut)
  else if i = s.pn.toNat + 3 then some (loByte s.crcOut)
  else if i = s.pn.toNat + 4 then some s.cfg.endByte
  else none

/-- Whether the next byte is the last of the frame, `FI = PN + 4` (R90). -/
def State.atLastByte (s : State) : Bool := s.fi.toNat == s.pn.toNat + 4

/-- The symbol TX.EMIT would emit, `frame_byte(FI)` with its `last` mark (R90, R51). -/
def State.nextSymbol (s : State) : Option TxSym := (s.frameByte s.fi.toNat).map (txSymbol s.atLastByte)

/-- All `PN + 5` bytes of the wire frame, in ascending wire index, where each is defined (R31, R81). -/
def State.frameBytes (s : State) : Option (List Byte) := (List.range (s.pn.toNat + 5)).mapM s.frameByte

/-- What TX.EMIT does to the registers after the symbol: with the last byte all frame state is cleared, else `FI` advances
(R90). -/
def State.advanceFrame (s : State) : State :=
  if s.atLastByte then State.setPn 0#8 { s with ph := .idle, fi := 0#9, crc := s.cfg.crcInit }
  else { s with fi := s.fi + 1#9 }

/-- `emit(b, l)`: the symbol on TX (R160). -/
def State.putSymbol (y : TxSym) (s : State) : State := { s with tx := s.tx ++ [y] }

/-- TX.EMIT: enabled exactly when `PH = SEND` (R90). -/
def emitNext (s : State) : Result :=
  match s.ph with
  | .idle => .refused .nothingToEmit
  | .build => .refused .nothingToEmit
  | .send =>
    match s.nextSymbol with
    | none => .fault .frameByteUndefined
    | some y => .next (State.putSymbol y s.advanceFrame)

/-- `k` TX.EMIT steps, one after the other. -/
def emitTimes : Nat → State → Result
  | 0, s => .next s
  | k + 1, s =>
    match emitNext s with
    | .next t => emitTimes k t
    | .fault r => .fault r
    | .refused r => .refused r

/-- One step of putting the wire frame `bytes` on TX: where it is the frame in flight, the TX.EMIT of its next byte. A whole
frame is `n + 5` such steps and no atomic one (spec/20_memory.md R37, R91; log 12). -/
def emitFrame (bytes : List Byte) (s : State) : Result :=
  match s.ph with
  | .idle => .refused .frameNotInFlight
  | .build => .refused .frameNotInFlight
  | .send =>
    match s.frameBytes with
    | none => .fault .frameByteUndefined
    | some now => if now = bytes then emitNext s else .refused .frameNotInFlight

/-! ## RESET (spec/70_reset_and_hazards.md R140) -/

/-- The six registers at their reset values (R20, R140). -/
def State.resetRegisters (s : State) : State :=
  State.setPn 0#8 { s with crc := s.cfg.crcInit, ph := .idle, fi := 0#9, ef := 0#4 }

end Sys2Proof.Machine
end

