-- ==== Sys2Proof/Machine/CrcCommands.lean ====
section
/-! DEFINITION. The meanings of CRC.CLR, CRC.UPD and CRC.RD (spec/40_crc16.md R69 to R71). -/

namespace Sys2Proof.Machine

/-- CRC.CLR (R69): legal in IDLE; `CRC <- CRC_INIT`. -/
def execCrcClr (s : State) : Result :=
  commandStep [.idle] s (fun t => State.respondOk { t with crc := t.cfg.crcInit })

/-- CRC.UPD b (R70): legal in IDLE; `CRC <- crc_step(CRC, b)`. -/
def execCrcUpd (b : Byte) (s : State) : Result :=
  commandStep [.idle] s (fun t => State.respondOk { t with crc := crcStep t.crc b })

/-- CRC.RD (R71): legal in IDLE and BUILD; responds with `CRC XOR CRC_XOROUT`, changes no state. -/
def execCrcRd (s : State) : Result :=
  commandStep [.idle, .build] s (fun t => t.respond okCode t.crcOut)

end Sys2Proof.Machine
end

