-- ==== Sys2Proof/Machine/Framer.lean ====
section
/-! DEFINITION. The frame builder: frame_of, the meanings of FRM.BEGIN, FRM.PUSH, FRM.SEND, FRM.ABORT and of the step TX.EMIT
(spec/41_framer.md R80 to R90), and of the two wire-frame formats (spec/30_encoding.md R52, R54). -/

namespace Sys2Proof.Machine

/-- `frame_of(p)`, defined for 1 to 255 bytes (R80). -/
def frameOf (cfg : Config) (p : List Byte) : List Byte := wireFrame cfg p (crc16 cfg p)

/-- The TX symbols of a byte string that is emitted as one frame: `last = 1` on its final byte only (R51). -/
def frameSymbols : List Byte → List TxSym
  | [] => []
  | [b] => [txSymbol true b]
  | b :: c :: bs => txSymbol false b :: frameSymbols (c :: bs)

/-- FRM.BEGIN (R82): legal in IDLE. -/
def execFrmBegin (s : State) : Result :=
  commandStep [.idle] s (fun t => State.respondOk (State.setPn 0#8 { t with ph := .build, crc := t.cfg.crcInit }))

/-- FRM.PUSH b (R84): legal in BUILD; LEN when `MAX_PAYLOAD` bytes, by default 255, are held (log 21). -/
def execFrmPush (b : Byte) (s : State) : Result :=
  commandStep [.build] s (fun t =>
    if t.cfg.maxPayload.val ≤ t.pn.toNat then t.raise .len
    else State.respondOk (State.appendByte b { t with crc := crcStep t.crc b }))

/-- FRM.SEND (R86): legal in BUILD; LEN when no byte is held. -/
def execFrmSend (s : State) : Result :=
  commandStep [.build] s (fun t =>
    if t.pn = 0#8 then t.raise .len
    else State.respondOk { t with ph := .send, fi := 0#9 })

/-- FRM.ABORT (R88): legal in IDLE and BUILD. -/
def execFrmAbort (s : State) : Result :=
  commandStep [.idle, .build] s (fun t => State.respondOk (State.setPn 0#8 { t with ph := .idle, crc := t.cfg.crcInit }))

/-- TX.EMIT (R90). The operands are the symbol it emits, which the registers decide: any other symbol is refused, and
outside phase SEND the step is disabled (log 11). -/
def execTxEmit (last : Bool) (b : Byte) (s : State) : Result :=
  if s.ph = .send ∧ s.nextSymbol ≠ none ∧ s.nextSymbol ≠ some (txSymbol last b) then .refused .symbolNotNext
  else emitNext s

/-- FRAME.W (R52): one step of the frame with payload `p` and checksum `c` going out on TX (R91, R37; log 12). -/
def execFrameW (p : List Byte) (c : BitVec 16) (s : State) : Result := emitFrame (wireFrame s.cfg p c) s

/-- FRAME.SET_DUTY (R54): one step of the set-duty frame with scaled value `d` and checksum `c` going out on TX (R91, R37;
log 12). -/
def execFrameSetDuty (d : BitVec 32) (c : BitVec 16) (s : State) : Result :=
  emitFrame (wireFrame s.cfg (s.cfg.idSetDuty :: be32 d) c) s

end Sys2Proof.Machine
end

