-- ==== Sys2Proof/Machine/Duty.lean ====
section
/-! DEFINITION. The duty-cycle command: ScaleFn (spec/42_duty_command.md R102, R109), duty_payload (R104), encode_duty (R100)
and the meaning of CMD.DUTY (R106). -/

namespace Sys2Proof.Machine

/-- `n / 2^r` rounded to the nearest natural number, a tie going to the even one. -/
def roundHalfEven (n r : Nat) : Nat :=
  let q := n >>> r
  let rem := n % 2 ^ r
  if 2 * rem < 2 ^ r then q else if 2 ^ r < 2 * rem then q + 1 else q + q % 2

/-- The exponent of the last place of the binary64 values around a nonzero number: 53 significant bits, and never below
2^-1074 (R105). -/
def ulpExp (x : Dyad) : Int := max (((x.mant.log2 : Nat) : Int) + x.exp - 52) (-1074)

/-- `RNE64(q)`: `q` rounded to the nearest binary64 value, a tie going to the value with an even significand (R102). No
overflow to infinity arises, as `abs(q)` is at most `DUTY_SCALE`. -/
def rne64 (x : Dyad) : Dyad :=
  if ulpExp x ≤ x.exp then x
  else { neg := x.neg, mant := roundHalfEven x.mant (ulpExp x - x.exp).toNat, exp := ulpExp x }

/-- `trunc(p)`: the integer part, rounding toward zero (R102). -/
def Dyad.trunc (x : Dyad) : Int :=
  let n : Nat := if 0 ≤ x.exp then x.mant <<< x.exp.toNat else x.mant >>> (-x.exp).toNat
  if x.neg then -(n : Int) else (n : Int)

/-- The exact product `val(d) * DUTY_SCALE` (R102). -/
def scaledProduct (scale : Nat) (d : BitVec 64) : Dyad :=
  { neg := (f64Dyad d).neg, mant := (f64Dyad d).mant * scale, exp := (f64Dyad d).exp }

/-- The integer of the first row of a table that lists `d`, else `otherwise`. -/
def scaleTable (otherwise : Int) (d : BitVec 64) : List (BitVec 64 × Int) → Int
  | [] => otherwise
  | (k, z) :: rows => if d = k then z else scaleTable otherwise d rows

/-- `ScaleFn(d)` for an in-range `d`: R102, or the exact-product reading (D16), or the table, as the instance is configured
(R5; log 3). -/
def scaleFn (cfg : Config) (d : BitVec 64) : Int :=
  match cfg.scaleFn with
  | .roundedProduct => (rne64 (scaledProduct cfg.dutyScale d)).trunc
  | .exactProduct => (scaledProduct cfg.dutyScale d).trunc
  | .table rows => scaleTable (rne64 (scaledProduct cfg.dutyScale d)).trunc d rows

/-- `ScaleFn(d)` as R109 writes it, with its factor 100000: in integers, `a = A / 2^t`. -/
def scaleFnInteger (d : BitVec 64) : Int :=
  let q := scaledProduct 100000 d
  let sg : Int := if q.neg then -1 else 1
  let t : Nat := (-q.exp).toNat
  let A : Nat := q.mant <<< q.exp.toNat
  if A = 0 then 0
  else
    let k : Nat := (A + (1 <<< t) - 1) >>> t
    if A = k <<< t then sg * (k : Int)
    else
      -- 53 - E, where 2^E < k <= 2^(E+1) and E = -1 for k = 1
      let g : Nat := if k = 1 then 54 else 53 - (k - 1).log2
      -- a >= k - 2^-g, multiplied by 2^(t+g)
      if (k <<< (t + g)) ≤ (A <<< g) + (1 <<< t) then sg * (k : Int) else sg * ((k : Int) - 1)

/-- `duty_payload(d)` (R104). -/
def dutyPayload (cfg : Config) (d : BitVec 64) : List Byte := cfg.idSetDuty :: be32 (tc32 (scaleFn cfg d))

/-- `encode_duty(d)`, the source's `encode_duty_cycle` (R100). -/
def encodeDuty (cfg : Config) (d : BitVec 64) : Except Err (List Byte) :=
  if outOfRange d then .error .outOfRange else .ok (frameOf cfg (dutyPayload cfg d))

/-- CMD.DUTY d (R106): accepted outside SEND; OUT_OF_RANGE before the phase is looked at; legal in IDLE. -/
def execCmdDuty (d : BitVec 64) (s : State) : Result :=
  whenAccepted s (fun t =>
    if outOfRange d then .next (t.raise .outOfRange)
    else whenLegal [.idle] t (fun u =>
      State.respondOk
        (State.loadPayload (dutyPayload u.cfg d)
          { u with crc := crc16Raw u.cfg (dutyPayload u.cfg d), fi := 0#9, ph := .send })))

end Sys2Proof.Machine
end

