-- ==== Sys2Proof/Machine/Status.lean ====
section
/-! DEFINITION. The meanings of ST.RD (spec/43_status.md R115) and of the event RESET (spec/70_reset_and_hazards.md R140). -/

namespace Sys2Proof.Machine

/-- ST.RD (R115): legal in every phase, never held; responds with `ST`, changes no state. -/
def execStRd (s : State) : Result := whenLegal [.idle, .build, .send] s (fun t => t.respond okCode (statusWord t))

/-- RESET (R140): every register at its reset value; no response word, no TX symbol. -/
def execReset (s : State) : Result := .next s.resetRegisters

end Sys2Proof.Machine
end

