-- ==== Sys2Proof/Machine/Dispatch.lean ====
section
/-! DEFINITION. One arm per constructor of Instr. -/

namespace Sys2Proof.Machine

def exec (i : Instr) (s : State) : Host.Outcome State Fault Refusal :=
  match i with
  | .crcClr => Sys2Proof.Machine.execCrcClr s
  | .crcUpd b => Sys2Proof.Machine.execCrcUpd b s
  | .crcRd => Sys2Proof.Machine.execCrcRd s
  | .frmBegin => Sys2Proof.Machine.execFrmBegin s
  | .frmPush b => Sys2Proof.Machine.execFrmPush b s
  | .frmSend => Sys2Proof.Machine.execFrmSend s
  | .frmAbort => Sys2Proof.Machine.execFrmAbort s
  | .cmdDuty d => Sys2Proof.Machine.execCmdDuty d s
  | .stRd => Sys2Proof.Machine.execStRd s
  | .txEmit last b => Sys2Proof.Machine.execTxEmit last b s
  | .reset => Sys2Proof.Machine.execReset s
  | .frameSetDuty d c => Sys2Proof.Machine.execFrameSetDuty d c s
  | .frameW p c => Sys2Proof.Machine.execFrameW p c s

end Sys2Proof.Machine
end

