-- ==== Sys2Proof/Machine/Turns.lean ====
section
/-! DEFINITION. One step of the machine: which agent moves, the word it takes from its port, decoding it and running it
(spec/00_scope.md R6, R7, spec/30_encoding.md R48). And placing an instruction where the next step finds it. -/

namespace Sys2Proof.Machine

/-- Step 1 of R48: a command word is accepted outside phase SEND, and with opcode 0x30 in every phase. It looks at the
opcode alone: an ill-formed word is held or accepted like a well-formed one (R126, 90_conflicts.md C10). -/
def accepts (s : State) (w : CmdWord) : Bool := s.ph != .send || opcodeField w == 0x30#8

/-- Whether the agent's step is enabled: a command step when the HOST offers an accepted word; TX.EMIT when `PH = SEND`
(R90); RESET always (R140). -/
def enabled (s : State) : Turn → Bool
  | .command => match s.cmd with
    | [] => false
    | w :: _ => accepts s w
  | .emit => s.ph == .send
  | .reset => true

/-- The word the agent takes from its port: the command word offered; the symbol in the registers; the event. -/
def fetch (s : State) : Turn → Option PortWord
  | .command => s.cmd.head?.map .command
  | .emit => s.nextSymbol.map .symbol
  | .reset => some (.event 1#1)

/-- The HOST's part of a step: the word offered counts as accepted and the HOST turns to the next (R39 (a)). -/
def retire (s : State) : Turn → State
  | .command => match s.cmd with
    | [] => s
    | w :: ws => { s with cmd := ws, accepted := s.accepted ++ [w] }
  | .emit => s
  | .reset => s

/-- One enabled step of an agent: take the word, decode it, run the instruction. A word that is no instruction is ILLEGAL
(R55 (a), R48 step 2): a command word, since a TX symbol and the event always decode. -/
def takeTurn (t : Turn) (s : State) : Result :=
  match fetch s t with
  | none => .fault .frameByteUndefined
  | some pw =>
    match decode s.cfg pw with
    | .ok i => exec i (retire s t)
    | .error _ => .next ((retire s t).raise .illegal)

/-- The first agent of the list whose step is enabled moves; an agent whose step is disabled gives its turn away (R126: a
held command is "a disabled step, not an error and not a no-op"; log 5). With no enabled step left nothing happens (log 6). -/
def stepTurns : List Turn → State → Result
  | [], _ => .refused .noStepEnabled
  | t :: ts, s => if enabled s t then takeTurn t { s with turns := ts } else stepTurns ts s

/-! ## Placing an instruction where the next step finds it (log 15) -/

/-- The registers with a wire frame frozen in them and no byte emitted: payload `p`, checksum field `c`. -/
def State.freezeFrame (p : List Byte) (c : BitVec 16) (s : State) : State :=
  State.loadPayload p { s with ph := .send, fi := 0#9, crc := c ^^^ s.cfg.crcXorout }

/-- The registers with `last || b` as the next symbol. A byte that is not the last is put in the payload of a one-byte
frame; a last byte is the end of such a frame. -/
def State.freezeSymbol (last : Bool) (b : Byte) (s : State) : State :=
  if last then { State.loadPayload [b] s with ph := .send, fi := 5#9, crc := crc16Raw s.cfg [b] }
  else { State.loadPayload [b] s with ph := .send, fi := 2#9, crc := crc16Raw s.cfg [b] }

/-- The word placed on its port and the turn given to the agent that takes it: a wire frame is frozen in the registers and the
TXU gets the turn for its first byte (log 12). What no state of the block holds cannot be
placed: a symbol with `last = 1` that is not the end byte (R51), a byte string that is no wire frame (R52). -/
def placeWord (s : State) : PortWord → State
  | .command w => { s with cmd := w :: s.cmd, turns := .command :: s.turns }
  | .event _ => { s with turns := .reset :: s.turns }
  | .symbol y =>
    let r := { s with turns := .emit :: s.turns }
    if s.ph = .send ∧ s.nextSymbol = some y then r
    else
      match decodeSymbol y with
      | .txEmit last b => if last && b != s.cfg.endByte then s else r.freezeSymbol last b
      | _ => s
  | .frame bytes =>
    let r := { s with turns := .emit :: s.turns }
    if s.ph = .send ∧ s.fi = 0#9 ∧ s.frameBytes = some bytes then r
    else
      match decodeFrame s.cfg bytes with
      | .ok (.frameSetDuty d c) => r.freezeFrame (s.cfg.idSetDuty :: be32 d) c
      | .ok (.frameW p c) => r.freezeFrame p c
      | _ => s

end Sys2Proof.Machine
end

