-- ==== Sys2Proof/Machine/Step.lean ====
section
/-! DEFINITION. The step function, and an instruction placed where step finds it next. -/

namespace Sys2Proof.Machine

/-- One step of the block: the first agent of `turns` whose step is enabled moves (spec/00_scope.md R6). -/
def step (s : State) : Host.Outcome State Fault Refusal := stepTurns s.turns s

/-- `s` with the instruction of the word `w` where the next step takes it from: a command word offered on CMD, a TX symbol
or a wire frame in the registers, the event on RESET; and that agent's turn next (log 15). -/
def State.withFetchWord (s : State) (nbits w : Nat) : State :=
  match tableWord nbits w with
  | some pw => placeWord s pw
  | none => s

end Sys2Proof.Machine
end

