-- ==== Sys2Proof/Machine/Assembler.lean ====
section
/-! DEFINITION. The assembler line and the pseudo-instructions (spec/30_encoding.md R57, R58): how a HOST writes commands. -/

namespace Sys2Proof.Machine

/-- The operand of an assembler line, after reading its characters: none, a natural number (decimal or 0x hex), a decimal
literal `digits / 10^places` with its sign, or a 64-bit pattern (R57). -/
inductive AsmOperand
  | none
  | number (n : Nat)
  | decimal (neg : Bool) (digits places : Nat)
  | pattern (d : BitVec 64)
  deriving DecidableEq, Repr

/-- The greatest `e` with `2^e <= num / den`, for `num` and `den` not 0. -/
def floorLog2Ratio (num den : Nat) : Int :=
  let e : Int := (num.log2 : Int) - (den.log2 : Int)
  if den * 2 ^ e.toNat ≤ num * 2 ^ (-e).toNat then e else e - 1

/-- The binary64 value nearest to `num / den`, a tie going to the even one (R57, R160). Beyond the largest finite value it is
the infinity. -/
def nearestF64 (neg : Bool) (num den : Nat) : BitVec 64 :=
  let sign : Nat := if neg then 2 ^ 63 else 0
  if num = 0 then BitVec.ofNat 64 sign
  else
    let u : Int := max (floorLog2Ratio num den - 52) (-1074)
    let a : Nat := num * 2 ^ (-u).toNat
    let b : Nat := den * 2 ^ u.toNat
    let q := a / b
    let m := if 2 * (a % b) < b then q else if b < 2 * (a % b) then q + 1 else q + q % 2
    BitVec.ofNat 64 (sign + min ((u + 1074).toNat * 2 ^ 52 + m) (2047 * 2 ^ 52))

/-- The line `mnemonic operand` as a command (R57); none where the operand is not the mnemonic's. -/
def assemble (mnemonic : String) (operand : AsmOperand) : Option Instr :=
  match operand with
  | .none =>
    if mnemonic = "CRC.CLR" then some .crcClr
    else if mnemonic = "CRC.RD" then some .crcRd
    else if mnemonic = "FRM.BEGIN" then some .frmBegin
    else if mnemonic = "FRM.SEND" then some .frmSend
    else if mnemonic = "FRM.ABORT" then some .frmAbort
    else if mnemonic = "ST.RD" then some .stRd
    else Option.none
  | .number n =>
    if n < 256 then
      if mnemonic = "CRC.UPD" then some (.crcUpd (BitVec.ofNat 8 n))
      else if mnemonic = "FRM.PUSH" then some (.frmPush (BitVec.ofNat 8 n))
      else Option.none
    else Option.none
  | .decimal neg digits places =>
    if mnemonic = "CMD.DUTY" then some (.cmdDuty (nearestF64 neg digits (10 ^ places))) else Option.none
  | .pattern d => if mnemonic = "CMD.DUTY" then some (.cmdDuty d) else Option.none

/-- `FRM.RAW b0, ..., b(n-1)`, for 1 <= n <= 255 (R58). -/
def frmRaw (p : List Byte) : List Instr := .frmBegin :: (p.map .frmPush ++ [.frmSend])

/-- `CMD.STOP`, the zero-duty command (R58). -/
def cmdStop : List Instr := [.cmdDuty 0x0000000000000000#64]

/-- `CRC.OF b0, ..., b(k-1)` (R58). -/
def crcOf (m : List Byte) : List Instr := .crcClr :: (m.map .crcUpd ++ [.crcRd])

/-- `WAIT.IDLE`: ST.RD repeated until its response passes this test, `DATA[1:0] = 0` (R58). -/
def waitIdleDone (r : RspWord) : Bool := r.extractLsb' 0 2 == 0#2

/-- `k` rounds of `WAIT.IDLE` (R58). -/
def waitIdle (k : Nat) : List Instr := List.replicate k .stRd

/-- Instructions one after the other. -/
def execAll : List Instr → State → Result
  | [], s => .next s
  | i :: is, s =>
    match exec i s with
    | .next t => execAll is t
    | .fault r => .fault r
    | .refused r => .refused r

end Sys2Proof.Machine
end

