-- ==== Sys2Proof/Safety.lean ====
section
/-! DEFINITION. What counts as a good state and a safe run, in the terms the statements use. -/

namespace Sys2Proof.Machine

/-- Exactly the entries `PB[0..PN-1]` hold a value (spec/10_state.md R16). -/
abbrev State.BufferFilled (s : State) : Prop := s.pb.map Prod.fst = List.range s.pn.toNat

/-- In phase IDLE no payload is held and no frame is in flight (R14 (b)). -/
abbrev State.IdleClean (s : State) : Prop := s.ph = .idle → s.pn = 0#8 ∧ s.fi = 0#9

/-- In phase BUILD no byte is out and `CRC` is that of the bytes pushed so far (R14 (c)). -/
abbrev State.BuildCrc (s : State) : Prop := s.ph = .build → s.fi = 0#9 ∧ s.crc = crc16Raw s.cfg s.payload

/-- In phase SEND a frame of at least one payload byte is frozen with its `CRC`, and `FI` is a wire index of it (R14 (d)). -/
abbrev State.SendFrozen (s : State) : Prop :=
  s.ph = .send → 1 ≤ s.pn.toNat ∧ s.fi.toNat ≤ s.pn.toNat + 4 ∧ s.crc = crc16Raw s.cfg s.payload

/-- The invariants of spec/10_state.md R14, with R16. -/
abbrev State.Inv (s : State) : Prop := s.BufferFilled ∧ s.IdleClean ∧ s.BuildCrc ∧ s.SendFrozen

/-- The six registers of R10 agree. -/
abbrev State.SameRegisters (s t : State) : Prop :=
  t.crc = s.crc ∧ t.ph = s.ph ∧ t.pn = s.pn ∧ t.pb = s.pb ∧ t.fi = s.fi ∧ t.ef = s.ef

/-- The agent that moves next: the first of `turns` whose step is enabled. -/
def State.mover (s : State) : Option Turn := s.turns.find? (enabled s)

/-- What a model observes of a run (spec/00_scope.md R9). -/
def State.observation (s : State) : List (CmdWord × RspWord) × List TxSym := (s.accepted.zip s.rsp, s.tx)

/-- The end of a run (R9): the HOST has no further command and `PH = IDLE`. -/
abbrev State.EndOfRun (s : State) : Prop := s.cmd = [] ∧ s.ph = .idle

/-- An incomplete frame that will never be sent (R9): `PH = BUILD` at the end of the HOST's commands. -/
abbrev State.IncompleteFrame (s : State) : Prop := s.cmd = [] ∧ s.ph = .build

/-- The symbols of the frame in flight that are out already (spec/20_memory.md R39 (c)). -/
def State.inFlight (s : State) : List TxSym :=
  match s.ph with
  | .idle => []
  | .build => []
  | .send => (frameSymbols (frameOf s.cfg s.payload)).take s.fi.toNat

/-- `TX` carries the whole frames of the payloads `done`, one after another, then what is out of the frame in flight
(R39 (c) to (f)). -/
def State.FramesOut (s : State) (done : List (List Byte)) : Prop :=
  (∀ p ∈ done, 1 ≤ p.length ∧ p.length ≤ 255) ∧
    s.tx = (done.map (fun p => frameSymbols (frameOf s.cfg p))).flatten ++ s.inFlight

/-- A response was appended with this code and data, and no other (spec/30_encoding.md R49). -/
abbrev State.Responded (s t : State) (code : BitVec 3) (data : BitVec 16) : Prop := t.rsp = s.rsp ++ [rspWord code data]

/-- `s` after `raise E` (spec/60_exceptions.md R124): the flag and the response, nothing else. -/
def State.afterRaise (s : State) (flag : BitVec 4) (response : RspWord) : State :=
  { s with ef := s.ef ||| flag, rsp := s.rsp ++ [response] }

/-- The integer part of a rational, rounding toward zero. -/
def truncRat (q : Rat) : Int := if 0 ≤ q then q.floor else -((-q).floor)

end Sys2Proof.Machine
end

