-- ==== Sys2Proof/Certificates/Slice0/Obligations.lean ====
section
/-! DEFINITION. The statements about the machine, for the provers. -/

open Sys2Proof Sys2Proof.Machine

/-! ## Encodings -/

/-- Words written out from the spec's encodings (R45 to R47 with spec/95_test_vectors.md section 2.7, R51, R54) decode to the
instructions they stand for, and the words the spec lists as illegal are rejected. The model's own: the bit 1 on RESET is the
event (log 20, DEDUCED); the ten-byte frame is FRAME.SET_DUTY, not FRAME.W (log 13, DESIGN CHOICE); the start, end and
payload-id bytes of both frames are the defaults (log 2, PRESUMED). -/
def Obligations.SpecWordsDecode : Prop :=
  decodeCommand 0x010000000000000000#72 = .ok .crcClr ∧
  decodeCommand 0x020000000000000031#72 = .ok (.crcUpd 0x31#8) ∧
  decodeCommand 0x030000000000000000#72 = .ok .crcRd ∧
  decodeCommand 0x100000000000000000#72 = .ok .frmBegin ∧
  decodeCommand 0x1100000000000000FF#72 = .ok (.frmPush 0xFF#8) ∧
  decodeCommand 0x120000000000000000#72 = .ok .frmSend ∧
  decodeCommand 0x130000000000000000#72 = .ok .frmAbort ∧
  decodeCommand 0x20BFF0000000000000#72 = .ok (.cmdDuty 0xBFF0000000000000#64) ∧
  decodeCommand 0x300000000000000000#72 = .ok .stRd ∧
  decode Config.defaults (.symbol 0x103#9) = .ok (.txEmit true 0x03#8) ∧
  decode Config.defaults (.event 1#1) = .ok .reset ∧
  decode Config.defaults (.frame [0x02#8, 0x05#8, 0x05#8, 0x00#8, 0x00#8, 0xC3#8, 0x50#8, 0x3A#8, 0xA5#8, 0x03#8]) =
    .ok (.frameSetDuty 0x0000C350#32 0x3AA5#16) ∧
  decode Config.defaults (.frame [0x02#8, 0x01#8, 0x1E#8, 0xF3#8, 0xFF#8, 0x03#8]) = .ok (.frameW [0x1E#8] 0xF3FF#16) ∧
  decodeCommand 0x000000000000000000#72 = .error .unassignedOpcode ∧
  decodeCommand 0x140000000000000000#72 = .error .unassignedOpcode ∧
  decodeCommand 0x300000000000000001#72 = .error .operandBitsNotZero ∧
  decodeCommand 0x118000000000000005#72 = .error .operandBitsNotZero

/-- Every well-formed instruction, with every operand at every value its encoding admits and for every choice of the
parameters, is what its own encoding decodes to (R45 to R47, R51, R52, R54). -/
def Obligations.DecodeOfEncode : Prop :=
  ∀ (cfg : Config) (i : Instr), i.wf cfg = true → decode cfg (encode cfg i) = .ok i

/-- Every word that decodes to an instruction is that instruction's encoding: a word has one meaning and no instruction has
two words (R45 to R47, R51, R52, R54). -/
def Obligations.EncodeOfDecode : Prop :=
  ∀ (cfg : Config) (pw : PortWord) (i : Instr), decode cfg pw = .ok i → encode cfg i = pw

/-- R47: no command word selects two rows of the map; a word that selects a row decodes to that row's command; R55 (a): a
word that selects none is rejected. -/
def Obligations.DecodingFollowsTheOpcodeMap : Prop :=
  ∀ w : CmdWord,
    (∀ r ∈ opcodeMap, ∀ r' ∈ opcodeMap, r.selects w = true → r'.selects w = true → r = r') ∧
    (∀ r ∈ opcodeMap, r.selects w = true → ∃ i, decodeCommand w = .ok i ∧ i.mnemonic = r.mnemonic) ∧
    ((∀ r ∈ opcodeMap, r.selects w = false) → ∃ e, decodeCommand w = .error e)

/-! ## The step -/

/-- R6, R48, R90, R140: the first enabled agent moves, and what it runs is exec of the instruction its word decodes to. A
command step moreover takes the word off CMD; a TX.EMIT step is also a step of the wire frame in flight (R37, R91; log 12); a
disabled agent gives its turn away (the list of turns is the model's, log 5). -/
def Obligations.StepRunsDecodedInstruction : Prop :=
  (∀ (s : State) (ts : List Turn) (w : CmdWord) (ws : List CmdWord) (i : Instr),
    s.turns = .command :: ts → s.cmd = w :: ws → (s.ph ≠ .send ∨ opcodeField w = 0x30#8) → decodeCommand w = .ok i →
      step s = exec i { s with turns := ts, cmd := ws, accepted := s.accepted ++ [w] }) ∧
  (∀ (s : State) (ts : List Turn) (y : TxSym) (i : Instr),
    s.turns = .emit :: ts → s.ph = .send → s.nextSymbol = some y → decode s.cfg (.symbol y) = .ok i →
      step s = exec i { s with turns := ts }) ∧
  (∀ (s : State) (ts : List Turn) (bytes : List Byte) (i : Instr),
    s.turns = .emit :: ts → s.ph = .send → s.frameBytes = some bytes → decode s.cfg (.frame bytes) = .ok i →
      step s = exec i { s with turns := ts }) ∧
  (∀ (s : State) (ts : List Turn), s.turns = .reset :: ts → step s = exec .reset { s with turns := ts }) ∧
  (∀ (s : State) (t : Turn) (ts : List Turn),
    s.turns = t :: ts → enabled s t = false → step s = step { s with turns := ts })

/-- R55 (a): a command word that selects no row of R47, where it is accepted, changes no state except `EF.E_ILL` and is
answered with code 4 and data 0. The turn that offers it is the model's (log 5). -/
def Obligations.IllegalWordRaisesIllegal : Prop :=
  ∀ (s : State) (ts : List Turn) (w : CmdWord) (ws : List CmdWord),
    s.turns = .command :: ts → s.cmd = w :: ws → (s.ph ≠ .send ∨ opcodeField w = 0x30#8) →
    (∀ r ∈ opcodeMap, r.selects w = false) →
      step s = .next (State.afterRaise { s with turns := ts, cmd := ws, accepted := s.accepted ++ [w] } 0b1000#4 0x40000#19)

/-- R126: in phase SEND a command word whose opcode is not 0x30 is held, a disabled step; a command word with opcode 0x30
never is; outside SEND every word is accepted; no command other than ST.RD has an effect in SEND; a step of another agent
leaves the HOST's words as they are; and only the TX.EMIT of the last byte or RESET takes the block out of SEND. The refusal
`held` and the list of turns are the model's (log 8, 5). -/
def Obligations.CommandsHeldWhileSending : Prop :=
  (∀ (s : State) (w : CmdWord) (ws : List CmdWord), s.cmd = w :: ws →
    (enabled s .command = false ↔ s.ph = .send ∧ opcodeField w ≠ 0x30#8)) ∧
  (∀ (s : State) (ts : List Turn) (w : CmdWord) (ws : List CmdWord), s.turns = .command :: ts → s.cmd = w :: ws →
    s.ph = .send → opcodeField w ≠ 0x30#8 → step s = step { s with turns := ts }) ∧
  (∀ (s : State) (i : Instr), i.isCommand = true → i ≠ .stRd → s.ph = .send → exec i s = .refused .held) ∧
  (∀ (s t : State), step s = .next t → s.mover ≠ some .command → t.cmd = s.cmd) ∧
  (∀ (s t : State), step s = .next t → s.ph = .send → t.ph ≠ .send →
    (s.mover = some .emit ∧ s.atLastByte = true) ∨ s.mover = some .reset)

/-- From every state that meets R14's invariants: a step answers a next state whenever some agent of the list of turns is
enabled, and otherwise nothing happens (log 6); no fault is ever met (R127: "no fault that stops it for good"). The list of
turns and the fault and refusals named are the model's (log 5, 8, 10). -/
def Obligations.StepCompletesFromGoodStates : Prop :=
  ∀ s : State, s.Inv →
    ((∃ u, s.mover = some u) → ∃ t, step s = .next t) ∧
    (s.mover = none → step s = .refused .noStepEnabled)

/-- R127: from every state with `PH` other than SEND every command word gets a response. R48: exactly one. The turn that offers
it, and the lists of accepted words and responses, are the model's (log 5, 7). -/
def Obligations.EveryAcceptedCommandIsAnswered : Prop :=
  ∀ (s : State) (ts : List Turn) (w : CmdWord) (ws : List CmdWord),
    s.turns = .command :: ts → s.cmd = w :: ws → s.ph ≠ .send →
      ∃ t r, step s = .next t ∧ t.rsp = s.rsp ++ [r] ∧ t.accepted = s.accepted ++ [w] ∧ t.cmd = ws ∧ t.tx = s.tx

/-- R39 (b), R48: one response word per accepted command word, an invariant of every step. Keeping both lists in the state is
the model's (log 7). -/
def Obligations.ResponsesMatchAcceptedCommands : Prop :=
  ∀ s t : State, s.accepted.length = s.rsp.length → step s = .next t → t.accepted.length = t.rsp.length

/-- Every step keeps the parameters (R10, R17), takes the HOST's words from the front (R39 (a)) and only adds to what has been
observed (R9). The model's own: the list of turns, used up from the front (log 5, DESIGN CHOICE), the parameters as a field of
the state (log 1, DESIGN CHOICE), and the observation as part of the state that RESET leaves (log 7, DEDUCED). -/
def Obligations.HistoryOnlyGrows : Prop :=
  ∀ s t : State, step s = .next t →
    t.cfg = s.cfg ∧ s.rsp <+: t.rsp ∧ s.tx <+: t.tx ∧ s.accepted <+: t.accepted ∧ t.cmd <:+ s.cmd ∧ t.turns <:+ s.turns

/-! ## Reset and the invariants -/

/-- R20: after RESET `CRC = CRC_INIT`, `PH = 0`, `PN = 0`, `FI = 0`, `EF = 0`, no entry of `PB` defined, and `ST` reads 0. That the
parameters of the reset state are the defaults of R5, all eight of them, is the model's (log 17, DESIGN CHOICE; the values are
log 2, PRESUMED). -/
def Obligations.ResetStateValues : Prop :=
  State.reset.crc = 0x0000#16 ∧ State.reset.ph.bits = 0#2 ∧ State.reset.pn = 0#8 ∧ State.reset.fi = 0#9 ∧
  State.reset.crc = State.reset.cfg.crcInit ∧ State.reset.ef = 0#4 ∧ (∀ a, State.reset.pb.read a = none) ∧
  statusWord State.reset = 0x0000#16 ∧
  State.reset.cfg.crcInit = 0x0000#16 ∧ State.reset.cfg.crcXorout = 0x0000#16 ∧ State.reset.cfg.startByte = 0x02#8 ∧
  State.reset.cfg.endByte = 0x03#8 ∧ State.reset.cfg.idSetDuty = 0x05#8 ∧ State.reset.cfg.dutyScale = 100000 ∧
  State.reset.cfg.maxPayload.val = 255 ∧ State.reset.cfg.scaleFn = .roundedProduct

/-- R140: RESET is enabled in every state, puts the six registers at their reset values, changes nothing else (no response
word, no TX symbol), `ST` reads 0 afterwards, and every command word is accepted then. -/
def Obligations.ResetEventOutcome : Prop :=
  ∀ s : State,
    enabled s .reset = true ∧
    ∃ t, exec .reset s = .next t ∧
      t = { s with crc := s.cfg.crcInit, ph := .idle, pn := 0#8, pb := t.pb, fi := 0#9, ef := 0#4 } ∧
      (∀ a, t.pb.read a = none) ∧ statusWord t = 0x0000#16 ∧ (∀ w, accepts t w = true)

/-- The state after reset meets the invariants of R14 and R16. -/
def Obligations.ResetStateIsGood : Prop := State.reset.Inv

/-- R14, R16: the invariants hold after every step from every state in which they hold. -/
def Obligations.StepKeepsRegisterInvariants : Prop :=
  ∀ s t : State, s.Inv → step s = .next t → t.Inv

/-- The payload buffer keeps its canonical form through every step, from every state in which it has it: indexes inside 0 to 254,
which is R16, and strictly rising, which is the model's form of `PB` (log 9, DEDUCED). -/
def Obligations.StepKeepsBufferCanonical : Prop :=
  ∀ s t : State, s.pb.wf = true → step s = .next t → t.pb.wf = true

/-- R141: RESET with a frame in flight emits nothing, and none of the symbols of that frame that are out carries `last = 1`. -/
def Obligations.ResetTruncatesFrameInFlight : Prop :=
  ∀ (s : State) (done : List (List Byte)), s.Inv → s.FramesOut done → s.ph = .send →
    ∃ t, exec .reset s = .next t ∧
      t.tx = (done.map (fun p => frameSymbols (frameOf s.cfg p))).flatten ++
        (frameSymbols (frameOf s.cfg s.payload)).take s.fi.toNat ∧
      ((frameSymbols (frameOf s.cfg s.payload)).take s.fi.toNat).length = s.fi.toNat ∧
      (∀ y ∈ (frameSymbols (frameOf s.cfg s.payload)).take s.fi.toNat, y.getLsbD 8 = false) ∧
      t.inFlight = []

/-! ## The CRC generator -/

/-- R68 (b), (c): `crc_step` is linear over GF(2) in both arguments together; so, with `CRC_INIT = 0`, leading zero bytes do not
change the result. -/
def Obligations.CrcIsLinearAndIgnoresLeadingZeros : Prop :=
  (∀ (c1 c2 : BitVec 16) (b1 b2 : Byte), crcStep (c1 ^^^ c2) (b1 ^^^ b2) = crcStep c1 b1 ^^^ crcStep c2 b2) ∧
  crcStep 0x0000#16 0x00#8 = 0x0000#16 ∧
  (∀ (cfg : Config) (k : Nat) (m : List Byte), cfg.crcInit = 0x0000#16 →
    crc16Raw cfg (List.replicate k 0x00#8 ++ m) = crc16Raw cfg m ∧ crc16Raw cfg (List.replicate k 0x00#8) = 0x0000#16)

/-- R68 (d): the byte-table form of `crc_step`, with three entries of the table. -/
def Obligations.CrcTableForm : Prop :=
  (∀ (c : BitVec 16) (b : Byte),
    crcStep c b = (c <<< 8) ^^^ crcStep 0x0000#16 (c.extractLsb' 8 8 ^^^ b)) ∧
  crcStep 0x0000#16 0x01#8 = 0x1021#16 ∧ crcStep 0x0000#16 0x80#8 = 0x9188#16 ∧ crcStep 0x0000#16 0xFF#8 = 0x1EF0#16

/-- R68 (e): with `CRC_INIT = 0` and `CRC_XOROUT = 0`, a message followed by its own checksum, high byte first, has the CRC 0. -/
def Obligations.CrcResidueIsZero : Prop :=
  ∀ (cfg : Config) (m : List Byte), cfg.crcInit = 0x0000#16 → cfg.crcXorout = 0x0000#16 →
    crc16Raw cfg (m ++ [(crc16 cfg m).extractLsb' 8 8, (crc16 cfg m).extractLsb' 0 8]) = 0x0000#16

/-- R66: with `CRC_INIT = 0` the CRC of a message is the value of the bit-serial form. -/
def Obligations.CrcEqualsBitSerialForm : Prop :=
  ∀ (cfg : Config) (m : List Byte), cfg.crcInit = 0x0000#16 → crc16Raw cfg m = crcSerial m

open Polynomial in
/-- R66: with `CRC_INIT = 0` the CRC of a message is the remainder of m(x) * x^16 divided by x^16 + x^12 + x^5 + 1 over GF(2),
the bits of the message as coefficients, first byte first, bit 7 of each byte first. -/
def Obligations.CrcIsPolynomialRemainder : Prop :=
  ∀ (cfg : Config) (m : List Byte), cfg.crcInit = 0x0000#16 →
    let poly : List Bool → (ZMod 2)[X] := fun bits => bits.foldl (fun p b => p * X + (if b then 1 else 0)) 0
    poly (byteBits (hiByte (crc16Raw cfg m)) ++ byteBits (loByte (crc16Raw cfg m))) =
      (poly (m.flatMap byteBits) * X ^ 16) %ₘ (X ^ 16 + X ^ 12 + X ^ 5 + 1)

/-- R69: CRC.CLR in each phase, with its encoding. That a held command answers the refusal `held` is the model's (log 8,
DEDUCED). -/
def Obligations.CrcClrOutcome : Prop :=
  ∀ s : State,
    encode s.cfg .crcClr = .command 0x010000000000000000#72 ∧
    (s.ph = .idle → exec .crcClr s = .next { s with crc := s.cfg.crcInit, rsp := s.rsp ++ [0x00000#19] }) ∧
    (s.ph = .build → exec .crcClr s = .next (s.afterRaise 0b0100#4 0x30000#19)) ∧
    (s.ph = .send → exec .crcClr s = .refused .held)

/-- R70: CRC.UPD in each phase, with its encoding. That a held command answers the refusal `held` is the model's (log 8,
DEDUCED). -/
def Obligations.CrcUpdOutcome : Prop :=
  ∀ (s : State) (b : Byte),
    encode s.cfg (.crcUpd b) = .command (0x02#8 ++ 0#56 ++ b) ∧
    (s.ph = .idle → exec (.crcUpd b) s = .next { s with crc := crcStep s.crc b, rsp := s.rsp ++ [0x00000#19] }) ∧
    (s.ph = .build → exec (.crcUpd b) s = .next (s.afterRaise 0b0100#4 0x30000#19)) ∧
    (s.ph = .send → exec (.crcUpd b) s = .refused .held)

/-- R71: CRC.RD in each phase, with its encoding; in BUILD, in a state that meets R14, what it returns is the checksum of the
bytes pushed so far. That a held command answers the refusal `held` is the model's (log 8, DEDUCED). -/
def Obligations.CrcRdOutcome : Prop :=
  ∀ s : State,
    encode s.cfg .crcRd = .command 0x030000000000000000#72 ∧
    (s.ph ≠ .send → exec .crcRd s = .next { s with rsp := s.rsp ++ [0#3 ++ (s.crc ^^^ s.cfg.crcXorout)] }) ∧
    (s.ph = .send → exec .crcRd s = .refused .held) ∧
    (s.Inv → s.ph = .build → s.crc ^^^ s.cfg.crcXorout = crc16 s.cfg s.payload)

/-- R72: in phase IDLE `CRC.CLR`, `CRC.UPD m0`, ..., `CRC.RD` with no other step between returns `crc16(m)`, whatever `CRC` was. -/
def Obligations.CrcCommandsComputeCrc : Prop :=
  ∀ (s : State) (m : List Byte), s.ph = .idle →
    execAll (crcOf m) s =
      .next { s with
        crc := crc16Raw s.cfg m,
        rsp := s.rsp ++ List.replicate (m.length + 1) 0x00000#19 ++ [0#3 ++ crc16 s.cfg m] }

/-- R11: `CRC` changes only through CRC.CLR, CRC.UPD, FRM.BEGIN, FRM.PUSH, FRM.ABORT, CMD.DUTY, the last TX.EMIT of a frame and
RESET. A step of a wire frame is a TX.EMIT (log 12), so with the last byte it does too. -/
def Obligations.OnlyListedInstructionsChangeCrc : Prop :=
  ∀ (i : Instr) (s t : State), exec i s = .next t → t.crc ≠ s.crc →
    i = .crcClr ∨ (∃ b, i = .crcUpd b) ∨ i = .frmBegin ∨ (∃ b, i = .frmPush b) ∨ i = .frmAbort ∨ (∃ d, i = .cmdDuty d) ∨
    (((∃ b, i = .txEmit true b) ∨ (∃ d c, i = .frameSetDuty d c) ∨ (∃ p c, i = .frameW p c)) ∧ s.atLastByte = true) ∨
    i = .reset

/-! ## The frame builder -/

/-- R82: FRM.BEGIN in each phase, with its encoding. That a held command answers the refusal `held` is the model's (log 8,
DEDUCED). -/
def Obligations.FrmBeginOutcome : Prop :=
  ∀ s : State,
    encode s.cfg .frmBegin = .command 0x100000000000000000#72 ∧
    (s.ph = .idle → ∃ t, exec .frmBegin s = .next t ∧ (∀ a, t.pb.read a = none) ∧
      t = { s with ph := .build, pn := 0#8, pb := t.pb, crc := s.cfg.crcInit, rsp := s.rsp ++ [0x00000#19] }) ∧
    (s.ph = .build → exec .frmBegin s = .next (s.afterRaise 0b0100#4 0x30000#19)) ∧
    (s.ph = .send → exec .frmBegin s = .refused .held)

/-- R84: FRM.PUSH in each phase, with its encoding: it writes entry `PN` of `PB` and no other. The limit 255 of the rule is the
default of the parameter `MAX_PAYLOAD` (R5; log 21, DEDUCED), so the statement has the parameter. That a held command answers
the refusal `held` is the model's (log 8, DEDUCED). -/
def Obligations.FrmPushOutcome : Prop :=
  ∀ (s : State) (b : Byte),
    encode s.cfg (.frmPush b) = .command (0x11#8 ++ 0#56 ++ b) ∧
    (s.ph = .idle → exec (.frmPush b) s = .next (s.afterRaise 0b0100#4 0x30000#19)) ∧
    (s.ph = .build → s.cfg.maxPayload.val ≤ s.pn.toNat →
      exec (.frmPush b) s = .next (s.afterRaise 0b0010#4 0x20000#19)) ∧
    (s.ph = .build → s.pn.toNat < s.cfg.maxPayload.val →
      ∃ t, exec (.frmPush b) s = .next t ∧ t.pn.toNat = s.pn.toNat + 1 ∧
        t.pb.read s.pn.toNat = some b ∧ (∀ a < s.pn.toNat, t.pb.read a = s.pb.read a) ∧
        (∀ a, s.pn.toNat < a → t.pb.read a = none) ∧
        t = { s with crc := crcStep s.crc b, pn := t.pn, pb := t.pb, rsp := s.rsp ++ [0x00000#19] }) ∧
    (s.ph = .send → exec (.frmPush b) s = .refused .held)

/-- R86: FRM.SEND in each phase, with its encoding. That a held command answers the refusal `held` is the model's (log 8,
DEDUCED). -/
def Obligations.FrmSendOutcome : Prop :=
  ∀ s : State,
    encode s.cfg .frmSend = .command 0x120000000000000000#72 ∧
    (s.ph = .idle → exec .frmSend s = .next (s.afterRaise 0b0100#4 0x30000#19)) ∧
    (s.ph = .build → s.pn = 0#8 → exec .frmSend s = .next (s.afterRaise 0b0010#4 0x20000#19)) ∧
    (s.ph = .build → s.pn ≠ 0#8 →
      exec .frmSend s = .next { s with ph := .send, fi := 0#9, rsp := s.rsp ++ [0x00000#19] }) ∧
    (s.ph = .send → exec .frmSend s = .refused .held)

/-- R88: FRM.ABORT in each phase, with its encoding. That a held command answers the refusal `held` is the model's (log 8,
DEDUCED). -/
def Obligations.FrmAbortOutcome : Prop :=
  ∀ s : State,
    encode s.cfg .frmAbort = .command 0x130000000000000000#72 ∧
    (s.ph ≠ .send → ∃ t, exec .frmAbort s = .next t ∧ (∀ a, t.pb.read a = none) ∧
      t = { s with ph := .idle, pn := 0#8, pb := t.pb, crc := s.cfg.crcInit, rsp := s.rsp ++ [0x00000#19] }) ∧
    (s.ph = .send → exec .frmAbort s = .refused .held)

/-- R80, R31, R52, R53: the bytes of a frame, in order of transmission, for 1 to 255 payload bytes. -/
def Obligations.FrameLayout : Prop :=
  ∀ (cfg : Config) (p : List Byte), 1 ≤ p.length → p.length ≤ 255 →
    (frameOf cfg p).length = p.length + 5 ∧
    (frameOf cfg p)[0]? = some cfg.startByte ∧
    ((frameOf cfg p)[1]?).map BitVec.toNat = some p.length ∧
    (∀ i < p.length, (frameOf cfg p)[i + 2]? = p[i]?) ∧
    (frameOf cfg p)[p.length + 2]? = some ((crc16 cfg p).extractLsb' 8 8) ∧
    (frameOf cfg p)[p.length + 3]? = some ((crc16 cfg p).extractLsb' 0 8) ∧
    (frameOf cfg p)[p.length + 4]? = some cfg.endByte

/-- R81: in phase SEND the bytes `frame_byte(0), ..., frame_byte(PN + 4)` are `frame_of(PB[0..PN-1])`, and there is none beyond. -/
def Obligations.FrameViewIsFrameOfPayload : Prop :=
  ∀ s : State, s.Inv → s.ph = .send →
    s.frameBytes = some (frameOf s.cfg s.payload) ∧
    (∀ i ≤ s.pn.toNat + 4, s.frameByte i = (frameOf s.cfg s.payload)[i]?) ∧
    (∀ i, s.pn.toNat + 4 < i → s.frameByte i = none)

/-- R90: TX.EMIT: enabled exactly when `PH = SEND`; before the last byte it emits `frame_byte(FI)` with `last = 0` and advances
`FI`; with the last byte it emits with `last = 1` and clears all frame state. The instruction names the symbol emitted (log
11, DESIGN CHOICE); disabled, it answers the refusal `nothingToEmit` (log 8, DEDUCED). -/
def Obligations.TxEmitOutcome : Prop :=
  ∀ (s : State) (b : Byte),
    (enabled s .emit = true ↔ s.ph = .send) ∧
    (∀ last, s.ph ≠ .send → exec (.txEmit last b) s = .refused .nothingToEmit) ∧
    (s.ph = .send → s.frameByte s.fi.toNat = some b → s.fi.toNat ≠ s.pn.toNat + 4 →
      exec (.txEmit false b) s = .next { s with fi := s.fi + 1#9, tx := s.tx ++ [0#1 ++ b] }) ∧
    (s.ph = .send → s.frameByte s.fi.toNat = some b → s.fi.toNat = s.pn.toNat + 4 →
      ∃ t, exec (.txEmit true b) s = .next t ∧ (∀ a, t.pb.read a = none) ∧
        t = { s with ph := .idle, pn := 0#8, pb := t.pb, fi := 0#9, crc := s.cfg.crcInit, tx := s.tx ++ [1#1 ++ b] })

/-- R91: from a frozen frame with no byte out, `n + 5` steps of TX.EMIT put `frame_of` of the payload on TX, `last = 1` on
the final symbol only, and leave the block in phase IDLE with all frame state cleared. The list of turns is the model's (log
5). -/
def Obligations.EmitStepsTransmitFrozenFrame : Prop :=
  ∀ (s : State) (ts : List Turn), s.Inv → s.ph = .send → s.fi = 0#9 →
    s.turns = List.replicate (s.pn.toNat + 5) .emit ++ ts →
    Sys2Proof.core.run (s.pn.toNat + 5) s =
      .next { s with
        crc := s.cfg.crcInit, ph := .idle, pn := 0#8, pb := [], fi := 0#9, turns := ts,
        tx := s.tx ++ frameSymbols (frameOf s.cfg s.payload) }

/-- R52 with R91 and R37: FRAME.W of the frame in flight is the TX.EMIT of its next byte, and from a frozen frame with no byte
out `n + 5` of them put the whole frame on TX; a frame that is not the one in flight is refused. What a wire frame does as an
instruction is the model's (log 12, DEDUCED). -/
def Obligations.FrameWTransmitsFrozenFrame : Prop :=
  (∀ s : State, s.Inv → s.ph = .send →
    (∃ y, (frameSymbols (frameOf s.cfg s.payload))[s.fi.toNat]? = some y ∧
      (s.fi.toNat ≠ s.pn.toNat + 4 →
        exec (.frameW s.payload (crc16 s.cfg s.payload)) s = .next { s with fi := s.fi + 1#9, tx := s.tx ++ [y] }) ∧
      (s.fi.toNat = s.pn.toNat + 4 →
        exec (.frameW s.payload (crc16 s.cfg s.payload)) s = .next { s with
          crc := s.cfg.crcInit, ph := .idle, pn := 0#8, pb := [], fi := 0#9, tx := s.tx ++ [y] })) ∧
    (s.fi = 0#9 →
      execAll (List.replicate (s.pn.toNat + 5) (.frameW s.payload (crc16 s.cfg s.payload))) s =
        .next { s with
          crc := s.cfg.crcInit, ph := .idle, pn := 0#8, pb := [], fi := 0#9,
          tx := s.tx ++ frameSymbols (frameOf s.cfg s.payload) }) ∧
    (∀ (p : List Byte) (c : BitVec 16), p ≠ s.payload ∨ c ≠ crc16 s.cfg s.payload →
      exec (.frameW p c) s = .refused .frameNotInFlight)) ∧
  (∀ (s : State) (p : List Byte) (c : BitVec 16), s.ph ≠ .send → exec (.frameW p c) s = .refused .frameNotInFlight)

/-- R54 with R91 and R37: FRAME.SET_DUTY, where the payload frozen is `ID_SET_DUTY` and the four bytes of `d`, is the TX.EMIT of
the frame's next byte, and from no byte out ten of them put the bytes of R54 on TX; a frame that is not the one in flight is
refused. What a wire frame does as an instruction is the model's (log 12, DEDUCED). -/
def Obligations.FrameSetDutyTransmitsFrozenFrame : Prop :=
  (∀ (s : State) (d : BitVec 32), s.Inv → s.ph = .send → s.payload = s.cfg.idSetDuty :: be32 d →
    let c := crc16 s.cfg (s.cfg.idSetDuty :: be32 d)
    let symbols : List TxSym :=
      [0#1 ++ s.cfg.startByte, 0#1 ++ 0x05#8, 0#1 ++ s.cfg.idSetDuty, 0#1 ++ d.extractLsb' 24 8,
       0#1 ++ d.extractLsb' 16 8, 0#1 ++ d.extractLsb' 8 8, 0#1 ++ d.extractLsb' 0 8, 0#1 ++ c.extractLsb' 8 8,
       0#1 ++ c.extractLsb' 0 8, 1#1 ++ s.cfg.endByte]
    (∃ y, symbols[s.fi.toNat]? = some y ∧
      (s.fi ≠ 9#9 → exec (.frameSetDuty d c) s = .next { s with fi := s.fi + 1#9, tx := s.tx ++ [y] }) ∧
      (s.fi = 9#9 → exec (.frameSetDuty d c) s = .next { s with
        crc := s.cfg.crcInit, ph := .idle, pn := 0#8, pb := [], fi := 0#9, tx := s.tx ++ [y] })) ∧
    (s.fi = 0#9 → execAll (List.replicate 10 (.frameSetDuty d c)) s = .next { s with
      crc := s.cfg.crcInit, ph := .idle, pn := 0#8, pb := [], fi := 0#9, tx := s.tx ++ symbols }) ∧
    (∀ (d' : BitVec 32) (c' : BitVec 16), d' ≠ d ∨ c' ≠ c → exec (.frameSetDuty d' c') s = .refused .frameNotInFlight)) ∧
  (∀ (s : State) (d : BitVec 32) (c : BitVec 16), s.ph ≠ .send → exec (.frameSetDuty d c) s = .refused .frameNotInFlight)

/-- R91, R58: `FRM.RAW p0, ..., p(n-1)` from phase IDLE answers OK to each of its commands and then emits `frame_of(p)`; `n`
is at most `MAX_PAYLOAD`. That `MAX_PAYLOAD` is the limit of FRM.PUSH is the model's reading (log 21, DEDUCED). -/
def Obligations.RawPayloadIsTransmitted : Prop :=
  ∀ (s : State) (p : List Byte), s.Inv → s.ph = .idle → 1 ≤ p.length → p.length ≤ s.cfg.maxPayload.val →
    ∃ t u, execAll (frmRaw p) s = .next t ∧ t.rsp = s.rsp ++ List.replicate (p.length + 2) 0x00000#19 ∧ t.ef = s.ef ∧
      t.tx = s.tx ∧ emitTimes (p.length + 5) t = .next u ∧ u.tx = s.tx ++ frameSymbols (frameOf s.cfg p) ∧ u.ph = .idle

/-- R39 (c) to (f), R91, R149: TX always carries whole frames, one after another in order, then the symbols so far of the
frame in flight. A step keeps that, adding at most the payload frozen in the registers to the frames that are out, from every
state that meets R14; a RESET that cuts a frame short (R141) is left out. Keeping what is out on TX in the state is the
model's (log 7). -/
def Obligations.TxCarriesWholeFramesInOrder : Prop :=
  ∀ (s t : State) (done : List (List Byte)), s.Inv → s.FramesOut done → step s = .next t →
    (s.mover = some .reset → s.ph = .send → s.fi = 0#9) →
      t.FramesOut done ∨ (s.ph = .send ∧ t.ph = .idle ∧ t.FramesOut (done ++ [s.payload]))

/-- R44, R126: in phase SEND, `PN + 5 - FI` bytes taken by the SINK bring the block back to IDLE, and no fewer. -/
def Obligations.SinkTakingBytesEndsFrame : Prop :=
  ∀ s : State, s.Inv → s.ph = .send →
    (∃ t, emitTimes (s.pn.toNat + 5 - s.fi.toNat) s = .next t ∧ t.ph = .idle) ∧
    (∀ k < s.pn.toNat + 5 - s.fi.toNat, ∃ t, emitTimes k s = .next t ∧ t.ph = .send ∧ t.fi.toNat = s.fi.toNat + k)

/-- R38, R86: "Frame is immutable once built": from phase SEND every instruction that leaves the phase SEND leaves `PN`, `PB` and
`CRC` as they are. -/
def Obligations.FrozenFrameIsImmutable : Prop :=
  ∀ (i : Instr) (s t : State), s.ph = .send → exec i s = .next t → t.ph = .send →
    t.pn = s.pn ∧ t.pb = s.pb ∧ t.crc = s.crc

/-- R13: the phase changes only by the transitions of the table of R13. A step of a wire frame is a TX.EMIT (log 12), so with the
last byte it makes the same transition. -/
def Obligations.PhaseTransitions : Prop :=
  ∀ (i : Instr) (s t : State), exec i s = .next t → t.ph ≠ s.ph →
    (s.ph = .idle ∧ i = .frmBegin ∧ t.ph = .build) ∨
    (s.ph = .idle ∧ (∃ d, i = .cmdDuty d ∧ outOfRange d = false) ∧ t.ph = .send) ∨
    (s.ph = .build ∧ i = .frmSend ∧ 1 ≤ s.pn.toNat ∧ t.ph = .send) ∨
    (s.ph = .build ∧ i = .frmAbort ∧ t.ph = .idle) ∨
    (s.ph = .send ∧ ((∃ b, i = .txEmit true b) ∨ (∃ d c, i = .frameSetDuty d c) ∨ (∃ p c, i = .frameW p c)) ∧
      s.fi.toNat = s.pn.toNat + 4 ∧ t.ph = .idle) ∨
    (i = .reset ∧ t.ph = .idle)

/-! ## The duty command -/

/-- R105: the value of a binary64 pattern, case by case. -/
def Obligations.BinaryOperandValue : Prop :=
  ∀ d : BitVec 64,
    let s : Rat := if d.getLsbD 63 then -1 else 1
    let e := (d.extractLsb' 52 11).toNat
    let f := (d.extractLsb' 0 52).toNat
    (e = 0 → f = 0 → f64Class d = .zero ∧ f64Val d = some 0) ∧
    (e = 0 → f ≠ 0 → f64Class d = .subnormal ∧ f64Val d = some (s * (f : Rat) * (2 : Rat) ^ (-1074 : Int))) ∧
    (1 ≤ e → e ≤ 2046 → f64Class d = .normal ∧
      f64Val d = some (s * ((2 ^ 52 + f : Nat) : Rat) * (2 : Rat) ^ ((e : Int) - 1075))) ∧
    (e = 2047 → f = 0 → f64Class d = .infinity ∧ f64Val d = none) ∧
    (e = 2047 → f ≠ 0 → f64Class d = .nan ∧ f64Val d = none)

/-- R101: the operand is out of range when it is a NaN, an infinity, or has magnitude above 1.0; on the pattern that is one
unsigned comparison. -/
def Obligations.OutOfRangeExactlyAboveOne : Prop :=
  ∀ d : BitVec 64,
    (outOfRange d = true ↔ 0x3FF0000000000000 < (d.extractLsb' 0 63).toNat) ∧
    (outOfRange d = true ↔ f64Class d = .nan ∨ f64Class d = .infinity ∨ ∃ v, f64Val d = some v ∧ 1 < |v|)

/-- R102: for an in-range operand there is a binary64 value `p` nearest to the exact product `val(d) * DUTY_SCALE`, even in a
tie, and `ScaleFn` is its integer part toward zero. The bound that `cfg.wf` puts on `DUTY_SCALE` is log 4's. -/
def Obligations.ScaleFnTruncatesNearestProduct : Prop :=
  ∀ (cfg : Config) (d : BitVec 64) (v : Rat), cfg.wf = true → cfg.scaleFn = .roundedProduct →
    outOfRange d = false → f64Val d = some v →
    ∃ (x : BitVec 64) (p : Rat), f64Val x = some p ∧
      (∀ (y : BitVec 64) (r : Rat), f64Val y = some r → |v * cfg.dutyScale - p| ≤ |v * cfg.dutyScale - r|) ∧
      (∀ (y : BitVec 64) (r : Rat), f64Val y = some r → |v * cfg.dutyScale - p| = |v * cfg.dutyScale - r| →
        r = p ∨ x.getLsbD 0 = false) ∧
      scaleFn cfg d = truncRat p

/-- R109: with `DUTY_SCALE = 100000` the definition in integers equals `ScaleFn`. -/
def Obligations.ScaleFnIntegerForm : Prop :=
  ∀ (cfg : Config) (d : BitVec 64), cfg.scaleFn = .roundedProduct → cfg.dutyScale = 100000 → outOfRange d = false →
    scaleFn cfg d = scaleFnInteger d

/-- R103 (a), (b), (d), for both readings of `ScaleFn`: range, precision below one unit, sign and magnitude. The bound that
`cfg.wf` puts on `DUTY_SCALE` is log 4's. -/
def Obligations.ScaleFnBounds : Prop :=
  ∀ (cfg : Config) (d : BitVec 64) (v : Rat), cfg.wf = true → cfg.scaleFn.isProduct = true →
    outOfRange d = false → f64Val d = some v →
    -(cfg.dutyScale : Int) ≤ scaleFn cfg d ∧ scaleFn cfg d ≤ cfg.dutyScale ∧
    |(scaleFn cfg d : Rat) - v * cfg.dutyScale| < 1 ∧
    (0 ≤ v → 0 ≤ scaleFn cfg d) ∧ (v ≤ 0 → scaleFn cfg d ≤ 0) ∧
    |scaleFn cfg d| ≤ ⌈|v * cfg.dutyScale|⌉

/-- R103 (c), (g), for both readings: exact where the product is an integer, 0 for products below 1 - 2^-54. The bound that
`cfg.wf` puts on `DUTY_SCALE` is log 4's. -/
def Obligations.ScaleFnExactAndSmall : Prop :=
  ∀ (cfg : Config) (d : BitVec 64) (v : Rat), cfg.wf = true → cfg.scaleFn.isProduct = true →
    outOfRange d = false → f64Val d = some v →
    (∀ n : Int, v * cfg.dutyScale = n → scaleFn cfg d = n) ∧
    (|v * cfg.dutyScale| < 1 - (2 : Rat) ^ (-54 : Int) → scaleFn cfg d = 0)

/-- R103 (e), (f), for both readings: odd, and monotone. The bound that `cfg.wf` puts on `DUTY_SCALE` is log 4's. -/
def Obligations.ScaleFnOddAndMonotone : Prop :=
  ∀ (cfg : Config) (d d' : BitVec 64) (v v' : Rat), cfg.wf = true → cfg.scaleFn.isProduct = true →
    outOfRange d = false → outOfRange d' = false → f64Val d = some v → f64Val d' = some v' →
    (v' = -v → scaleFn cfg d' = -scaleFn cfg d) ∧ (v ≤ v' → scaleFn cfg d ≤ scaleFn cfg d')

/-- R104, R108, R32: the duty payload is the payload-id and four bytes that read back, most significant first in two's
complement, as `ScaleFn(d)`, whatever function that is; with `DUTY_SCALE = 100000` and either reading of the product the first of the
four is 0x00 or 0xFF by the sign. What `cfg.wf` asks, that `tc32` is defined, is log 4's. -/
def Obligations.DutyPayloadReadsBack : Prop :=
  ∀ (cfg : Config) (d : BitVec 64), cfg.wf = true → outOfRange d = false →
    ∃ b3 b2 b1 b0 : Byte, dutyPayload cfg d = [cfg.idSetDuty, b3, b2, b1, b0] ∧
      (b3 ++ b2 ++ b1 ++ b0 : BitVec 32).toInt = scaleFn cfg d ∧
      (cfg.scaleFn.isProduct = true → cfg.dutyScale = 100000 → b3 = if 0 ≤ scaleFn cfg d then 0x00#8 else 0xFF#8)

/-- R106: CMD.DUTY in each phase and for each operand, with its encoding: what it writes, and that `PB` then holds exactly the
five bytes of `duty_payload(d)`. That a held command answers the refusal `held` is the model's (log 8, DEDUCED). -/
def Obligations.CmdDutyOutcome : Prop :=
  ∀ (s : State) (d : BitVec 64),
    encode s.cfg (.cmdDuty d) = .command (0x20#8 ++ d) ∧
    (s.ph ≠ .send → outOfRange d = true → exec (.cmdDuty d) s = .next (s.afterRaise 0b0001#4 0x10000#19)) ∧
    (s.ph = .build → outOfRange d = false → exec (.cmdDuty d) s = .next (s.afterRaise 0b0100#4 0x30000#19)) ∧
    (s.ph = .idle → outOfRange d = false →
      ∃ t, exec (.cmdDuty d) s = .next t ∧
        (∀ a < 5, t.pb.read a = (dutyPayload s.cfg d)[a]?) ∧ (∀ a, 5 ≤ a → t.pb.read a = none) ∧
        t = { s with
          pb := t.pb, pn := 5#8, crc := crc16Raw s.cfg (dutyPayload s.cfg d), fi := 0#9, ph := .send,
          rsp := s.rsp ++ [0x00000#19] }) ∧
    (s.ph = .send → exec (.cmdDuty d) s = .refused .held)

/-- R106: CMD.DUTY is equivalent to FRM.BEGIN, five FRM.PUSH of the bytes of `duty_payload(d)` and FRM.SEND, but for the
number of responses; `MAX_PAYLOAD` admits five bytes. That it limits FRM.PUSH is the model's reading (log 21, DEDUCED). -/
def Obligations.CmdDutyEqualsRawSequence : Prop :=
  ∀ (s : State) (d : BitVec 64), s.Inv → s.ph = .idle → outOfRange d = false → 5 ≤ s.cfg.maxPayload.val →
    ∃ t u, exec (.cmdDuty d) s = .next t ∧ execAll (frmRaw (dutyPayload s.cfg d)) s = .next u ∧
      u = { t with rsp := u.rsp }

/-- R107, R100: the symbols an accepted in-range CMD.DUTY puts on TX are those of `encode_duty(d)`, ten bytes that depend on `d`
and the parameters alone, whatever was done before, whatever `EF` and `CRC` hold. -/
def Obligations.DutyTransmitsEncodedFrame : Prop :=
  ∀ (cfg : Config) (d : BitVec 64), outOfRange d = false →
    ∃ bytes, encodeDuty cfg d = .ok bytes ∧ bytes.length = 10 ∧
      ∀ s : State, s.Inv → s.cfg = cfg → s.ph = .idle →
        ∃ t u, exec (.cmdDuty d) s = .next t ∧ emitTimes 10 t = .next u ∧
          u.tx = s.tx ++ frameSymbols bytes ∧ u.ph = .idle ∧ u.ef = s.ef

/-! ## Errors, flags, status -/

/-- R124: whatever instruction ends with an error's code, it has set that error's flag and responded, and changed nothing else. -/
def Obligations.ErrorsChangeOnlyFlagAndResponse : Prop :=
  ∀ (i : Instr) (s t : State) (e : Err), exec i s = .next t → t.rsp = s.rsp ++ [e.code ++ 0#16] →
    t = { s with ef := s.ef ||| e.flag, rsp := t.rsp }

/-- R49, R50: an instruction appends at most one response word; its code is 0 to 4; its data is not 0 only for a successful
CRC.RD or ST.RD. -/
def Obligations.ResponseWordForm : Prop :=
  ∀ (i : Instr) (s t : State), exec i s = .next t →
    (i.isCommand = false ∧ t.rsp = s.rsp) ∨
    (i.isCommand = true ∧ ∃ (code : BitVec 3) (data : BitVec 16), t.rsp = s.rsp ++ [code ++ data] ∧ code.toNat ≤ 4 ∧
      (data ≠ 0#16 → code = 0#3 ∧ (i = .crcRd ∨ i = .stRd)))

/-- R15: a flag of `EF` is set by a command step that ends with the matching code and by nothing else; only RESET clears one. -/
def Obligations.FlagsAreSticky : Prop :=
  ∀ (i : Instr) (s t : State), exec i s = .next t →
    (i = .reset ∧ t.ef = 0#4) ∨
    (i ≠ .reset ∧ t.ef = s.ef ∧ ∀ e : Err, t.rsp ≠ s.rsp ++ [e.code ++ 0#16]) ∨
    (i ≠ .reset ∧ ∃ e : Err, t.ef = s.ef ||| e.flag ∧ t.rsp = s.rsp ++ [e.code ++ 0#16])

/-- R15, R125: "a set flag changes no later behaviour": with any other flags every instruction does the same to every other
register and to TX, and responds the same but for the data of ST.RD. -/
def Obligations.FlagsInfluenceNothing : Prop :=
  ∀ (i : Instr) (s : State) (ef : BitVec 4),
    (∀ t, exec i s = .next t → ∃ u, exec i { s with ef := ef } = .next u ∧
      u = { t with ef := u.ef, rsp := u.rsp } ∧ (i ≠ .stRd → u.rsp = t.rsp)) ∧
    (∀ r, exec i s = .refused r → exec i { s with ef := ef } = .refused r) ∧
    (∀ r, exec i s = .fault r → exec i { s with ef := ef } = .fault r)

/-- R17: the layout of the status word, field by field, and its value after reset. -/
def Obligations.StatusWordLayout : Prop :=
  statusWord State.reset = 0x0000#16 ∧ ∀ s : State,
    (statusWord s).extractLsb' 0 2 = s.ph.bits ∧
    (statusWord s).getLsbD 2 = s.ef.getLsbD 0 ∧ (statusWord s).getLsbD 3 = s.ef.getLsbD 1 ∧
    (statusWord s).getLsbD 4 = s.ef.getLsbD 2 ∧ (statusWord s).getLsbD 5 = s.ef.getLsbD 3 ∧
    (statusWord s).extractLsb' 6 2 = 0#2 ∧ (statusWord s).extractLsb' 8 8 = s.pn

/-- R115: ST.RD in every phase, SEND included, with its encoding: it answers OK with `ST` and changes no state. -/
def Obligations.StRdOutcome : Prop :=
  ∀ s : State,
    encode s.cfg .stRd = .command 0x300000000000000000#72 ∧
    exec .stRd s = .next { s with
      rsp := s.rsp ++ [0#3 ++
        (s.ph.bits.setWidth 16 ^^^ (s.ef.setWidth 16 <<< 2) ^^^ (s.pn.setWidth 16 <<< 8))] }

/-- R123: the order of causes. An ill-formed word is ILLEGAL whatever else is wrong with it; an out-of-range CMD.DUTY in
phase BUILD reports OUT_OF_RANGE and sets only `E_OOR`; LEN arises only in phase BUILD. The turn that offers the word is the
model's (log 5). -/
def Obligations.ErrorPriority : Prop :=
  (∀ (s : State) (w : CmdWord) (ws : List CmdWord) (ts : List Turn) (e : DecodeError),
    s.turns = .command :: ts → s.cmd = w :: ws → s.ph ≠ .send → decodeCommand w = .error e →
      ∃ t, step s = .next t ∧ t.ef = s.ef ||| 0b1000#4 ∧ t.rsp = s.rsp ++ [0x40000#19]) ∧
  (∀ (s : State) (d : BitVec 64), s.ph = .build → outOfRange d = true →
    ∃ t, exec (.cmdDuty d) s = .next t ∧ t.ef = s.ef ||| 0b0001#4 ∧ t.rsp = s.rsp ++ [0x10000#19]) ∧
  (∀ (i : Instr) (s t : State), exec i s = .next t → t.rsp = s.rsp ++ [0x20000#19] → s.ph = .build)
end

