-- ==== Sys2Proof/Laws/State.lean ====
section
/-! SUPPORT. What each named update of State does to each field: cited by simp, so that no proof unfolds a record update. -/

namespace Sys2Proof.Machine

@[simp] theorem Memory.below_zero (m : Memory) : m.below 0 = [] := by simp [Memory.below]

@[simp] theorem State.setPn_cfg (n : BitVec 8) (s : State) : (s.setPn n).cfg = s.cfg := rfl
@[simp] theorem State.setPn_crc (n : BitVec 8) (s : State) : (s.setPn n).crc = s.crc := rfl
@[simp] theorem State.setPn_ph (n : BitVec 8) (s : State) : (s.setPn n).ph = s.ph := rfl
@[simp] theorem State.setPn_pn (n : BitVec 8) (s : State) : (s.setPn n).pn = n := rfl
@[simp] theorem State.setPn_pb (n : BitVec 8) (s : State) : (s.setPn n).pb = s.pb.below n.toNat := rfl
@[simp] theorem State.setPn_fi (n : BitVec 8) (s : State) : (s.setPn n).fi = s.fi := rfl
@[simp] theorem State.setPn_ef (n : BitVec 8) (s : State) : (s.setPn n).ef = s.ef := rfl
@[simp] theorem State.setPn_cmd (n : BitVec 8) (s : State) : (s.setPn n).cmd = s.cmd := rfl
@[simp] theorem State.setPn_turns (n : BitVec 8) (s : State) : (s.setPn n).turns = s.turns := rfl
@[simp] theorem State.setPn_accepted (n : BitVec 8) (s : State) : (s.setPn n).accepted = s.accepted := rfl
@[simp] theorem State.setPn_rsp (n : BitVec 8) (s : State) : (s.setPn n).rsp = s.rsp := rfl
@[simp] theorem State.setPn_tx (n : BitVec 8) (s : State) : (s.setPn n).tx = s.tx := rfl

@[simp] theorem State.appendByte_cfg (b : Byte) (s : State) : (s.appendByte b).cfg = s.cfg := rfl
@[simp] theorem State.appendByte_crc (b : Byte) (s : State) : (s.appendByte b).crc = s.crc := rfl
@[simp] theorem State.appendByte_ph (b : Byte) (s : State) : (s.appendByte b).ph = s.ph := rfl
@[simp] theorem State.appendByte_pn (b : Byte) (s : State) : (s.appendByte b).pn = s.pn + 1#8 := rfl
@[simp] theorem State.appendByte_pb (b : Byte) (s : State) : (s.appendByte b).pb = (s.pb.write s.pn.toNat b).below (s.pn + 1#8).toNat := rfl
@[simp] theorem State.appendByte_fi (b : Byte) (s : State) : (s.appendByte b).fi = s.fi := rfl
@[simp] theorem State.appendByte_ef (b : Byte) (s : State) : (s.appendByte b).ef = s.ef := rfl
@[simp] theorem State.appendByte_cmd (b : Byte) (s : State) : (s.appendByte b).cmd = s.cmd := rfl
@[simp] theorem State.appendByte_turns (b : Byte) (s : State) : (s.appendByte b).turns = s.turns := rfl
@[simp] theorem State.appendByte_accepted (b : Byte) (s : State) : (s.appendByte b).accepted = s.accepted := rfl
@[simp] theorem State.appendByte_rsp (b : Byte) (s : State) : (s.appendByte b).rsp = s.rsp := rfl
@[simp] theorem State.appendByte_tx (b : Byte) (s : State) : (s.appendByte b).tx = s.tx := rfl

@[simp] theorem State.loadPayload_cfg (p : List Byte) (s : State) : (s.loadPayload p).cfg = s.cfg := rfl
@[simp] theorem State.loadPayload_crc (p : List Byte) (s : State) : (s.loadPayload p).crc = s.crc := rfl
@[simp] theorem State.loadPayload_ph (p : List Byte) (s : State) : (s.loadPayload p).ph = s.ph := rfl
@[simp] theorem State.loadPayload_pn (p : List Byte) (s : State) : (s.loadPayload p).pn = BitVec.ofNat 8 p.length := rfl
@[simp] theorem State.loadPayload_pb (p : List Byte) (s : State) : (s.loadPayload p).pb = (Memory.writeBytes 0 p s.pb).below (BitVec.ofNat 8 p.length).toNat := rfl
@[simp] theorem State.loadPayload_fi (p : List Byte) (s : State) : (s.loadPayload p).fi = s.fi := rfl
@[simp] theorem State.loadPayload_ef (p : List Byte) (s : State) : (s.loadPayload p).ef = s.ef := rfl
@[simp] theorem State.loadPayload_cmd (p : List Byte) (s : State) : (s.loadPayload p).cmd = s.cmd := rfl
@[simp] theorem State.loadPayload_turns (p : List Byte) (s : State) : (s.loadPayload p).turns = s.turns := rfl
@[simp] theorem State.loadPayload_accepted (p : List Byte) (s : State) : (s.loadPayload p).accepted = s.accepted := rfl
@[simp] theorem State.loadPayload_rsp (p : List Byte) (s : State) : (s.loadPayload p).rsp = s.rsp := rfl
@[simp] theorem State.loadPayload_tx (p : List Byte) (s : State) : (s.loadPayload p).tx = s.tx := rfl

@[simp] theorem State.respond_cfg (code : BitVec 3) (data : BitVec 16) (s : State) : (s.respond code data).cfg = s.cfg := rfl
@[simp] theorem State.respond_crc (code : BitVec 3) (data : BitVec 16) (s : State) : (s.respond code data).crc = s.crc := rfl
@[simp] theorem State.respond_ph (code : BitVec 3) (data : BitVec 16) (s : State) : (s.respond code data).ph = s.ph := rfl
@[simp] theorem State.respond_pn (code : BitVec 3) (data : BitVec 16) (s : State) : (s.respond code data).pn = s.pn := rfl
@[simp] theorem State.respond_pb (code : BitVec 3) (data : BitVec 16) (s : State) : (s.respond code data).pb = s.pb := rfl
@[simp] theorem State.respond_fi (code : BitVec 3) (data : BitVec 16) (s : State) : (s.respond code data).fi = s.fi := rfl
@[simp] theorem State.respond_ef (code : BitVec 3) (data : BitVec 16) (s : State) : (s.respond code data).ef = s.ef := rfl
@[simp] theorem State.respond_cmd (code : BitVec 3) (data : BitVec 16) (s : State) : (s.respond code data).cmd = s.cmd := rfl
@[simp] theorem State.respond_turns (code : BitVec 3) (data : BitVec 16) (s : State) : (s.respond code data).turns = s.turns := rfl
@[simp] theorem State.respond_accepted (code : BitVec 3) (data : BitVec 16) (s : State) : (s.respond code data).accepted = s.accepted := rfl
@[simp] theorem State.respond_rsp (code : BitVec 3) (data : BitVec 16) (s : State) : (s.respond code data).rsp = s.rsp ++ [rspWord code data] := rfl
@[simp] theorem State.respond_tx (code : BitVec 3) (data : BitVec 16) (s : State) : (s.respond code data).tx = s.tx := rfl

@[simp] theorem State.respondOk_cfg (s : State) : (s.respondOk).cfg = s.cfg := rfl
@[simp] theorem State.respondOk_crc (s : State) : (s.respondOk).crc = s.crc := rfl
@[simp] theorem State.respondOk_ph (s : State) : (s.respondOk).ph = s.ph := rfl
@[simp] theorem State.respondOk_pn (s : State) : (s.respondOk).pn = s.pn := rfl
@[simp] theorem State.respondOk_pb (s : State) : (s.respondOk).pb = s.pb := rfl
@[simp] theorem State.respondOk_fi (s : State) : (s.respondOk).fi = s.fi := rfl
@[simp] theorem State.respondOk_ef (s : State) : (s.respondOk).ef = s.ef := rfl
@[simp] theorem State.respondOk_cmd (s : State) : (s.respondOk).cmd = s.cmd := rfl
@[simp] theorem State.respondOk_turns (s : State) : (s.respondOk).turns = s.turns := rfl
@[simp] theorem State.respondOk_accepted (s : State) : (s.respondOk).accepted = s.accepted := rfl
@[simp] theorem State.respondOk_rsp (s : State) : (s.respondOk).rsp = s.rsp ++ [rspWord okCode 0#16] := rfl
@[simp] theorem State.respondOk_tx (s : State) : (s.respondOk).tx = s.tx := rfl

@[simp] theorem State.raise_cfg (e : Err) (s : State) : (s.raise e).cfg = s.cfg := rfl
@[simp] theorem State.raise_crc (e : Err) (s : State) : (s.raise e).crc = s.crc := rfl
@[simp] theorem State.raise_ph (e : Err) (s : State) : (s.raise e).ph = s.ph := rfl
@[simp] theorem State.raise_pn (e : Err) (s : State) : (s.raise e).pn = s.pn := rfl
@[simp] theorem State.raise_pb (e : Err) (s : State) : (s.raise e).pb = s.pb := rfl
@[simp] theorem State.raise_fi (e : Err) (s : State) : (s.raise e).fi = s.fi := rfl
@[simp] theorem State.raise_ef (e : Err) (s : State) : (s.raise e).ef = setFlag e s.ef := rfl
@[simp] theorem State.raise_cmd (e : Err) (s : State) : (s.raise e).cmd = s.cmd := rfl
@[simp] theorem State.raise_turns (e : Err) (s : State) : (s.raise e).turns = s.turns := rfl
@[simp] theorem State.raise_accepted (e : Err) (s : State) : (s.raise e).accepted = s.accepted := rfl
@[simp] theorem State.raise_rsp (e : Err) (s : State) : (s.raise e).rsp = s.rsp ++ [rspWord e.code 0#16] := rfl
@[simp] theorem State.raise_tx (e : Err) (s : State) : (s.raise e).tx = s.tx := rfl

@[simp] theorem State.putSymbol_cfg (y : TxSym) (s : State) : (s.putSymbol y).cfg = s.cfg := rfl
@[simp] theorem State.putSymbol_crc (y : TxSym) (s : State) : (s.putSymbol y).crc = s.crc := rfl
@[simp] theorem State.putSymbol_ph (y : TxSym) (s : State) : (s.putSymbol y).ph = s.ph := rfl
@[simp] theorem State.putSymbol_pn (y : TxSym) (s : State) : (s.putSymbol y).pn = s.pn := rfl
@[simp] theorem State.putSymbol_pb (y : TxSym) (s : State) : (s.putSymbol y).pb = s.pb := rfl
@[simp] theorem State.putSymbol_fi (y : TxSym) (s : State) : (s.putSymbol y).fi = s.fi := rfl
@[simp] theorem State.putSymbol_ef (y : TxSym) (s : State) : (s.putSymbol y).ef = s.ef := rfl
@[simp] theorem State.putSymbol_cmd (y : TxSym) (s : State) : (s.putSymbol y).cmd = s.cmd := rfl
@[simp] theorem State.putSymbol_turns (y : TxSym) (s : State) : (s.putSymbol y).turns = s.turns := rfl
@[simp] theorem State.putSymbol_accepted (y : TxSym) (s : State) : (s.putSymbol y).accepted = s.accepted := rfl
@[simp] theorem State.putSymbol_rsp (y : TxSym) (s : State) : (s.putSymbol y).rsp = s.rsp := rfl
@[simp] theorem State.putSymbol_tx (y : TxSym) (s : State) : (s.putSymbol y).tx = s.tx ++ [y] := rfl

@[simp] theorem State.resetRegisters_cfg (s : State) : (s.resetRegisters).cfg = s.cfg := rfl
@[simp] theorem State.resetRegisters_crc (s : State) : (s.resetRegisters).crc = s.cfg.crcInit := rfl
@[simp] theorem State.resetRegisters_ph (s : State) : (s.resetRegisters).ph = .idle := rfl
@[simp] theorem State.resetRegisters_pn (s : State) : (s.resetRegisters).pn = 0#8 := rfl
@[simp] theorem State.resetRegisters_pb (s : State) : (s.resetRegisters).pb = [] := Memory.below_zero _
@[simp] theorem State.resetRegisters_fi (s : State) : (s.resetRegisters).fi = 0#9 := rfl
@[simp] theorem State.resetRegisters_ef (s : State) : (s.resetRegisters).ef = 0#4 := rfl
@[simp] theorem State.resetRegisters_cmd (s : State) : (s.resetRegisters).cmd = s.cmd := rfl
@[simp] theorem State.resetRegisters_turns (s : State) : (s.resetRegisters).turns = s.turns := rfl
@[simp] theorem State.resetRegisters_accepted (s : State) : (s.resetRegisters).accepted = s.accepted := rfl
@[simp] theorem State.resetRegisters_rsp (s : State) : (s.resetRegisters).rsp = s.rsp := rfl
@[simp] theorem State.resetRegisters_tx (s : State) : (s.resetRegisters).tx = s.tx := rfl

@[simp] theorem State.advanceFrame_cfg (s : State) : s.advanceFrame.cfg = s.cfg := by unfold State.advanceFrame; split <;> rfl
@[simp] theorem State.advanceFrame_ef (s : State) : s.advanceFrame.ef = s.ef := by unfold State.advanceFrame; split <;> rfl
@[simp] theorem State.advanceFrame_cmd (s : State) : s.advanceFrame.cmd = s.cmd := by unfold State.advanceFrame; split <;> rfl
@[simp] theorem State.advanceFrame_turns (s : State) : s.advanceFrame.turns = s.turns := by unfold State.advanceFrame; split <;> rfl
@[simp] theorem State.advanceFrame_accepted (s : State) : s.advanceFrame.accepted = s.accepted := by unfold State.advanceFrame; split <;> rfl
@[simp] theorem State.advanceFrame_rsp (s : State) : s.advanceFrame.rsp = s.rsp := by unfold State.advanceFrame; split <;> rfl
@[simp] theorem State.advanceFrame_tx (s : State) : s.advanceFrame.tx = s.tx := by unfold State.advanceFrame; split <;> rfl

/-- TX.EMIT with the last byte clears the frame state (spec/41_framer.md R90). -/
theorem State.advanceFrame_last {s : State} (h : s.atLastByte = true) :
    s.advanceFrame = { s with ph := .idle, fi := 0#9, crc := s.cfg.crcInit, pn := 0#8, pb := [] } := by
  simp [State.advanceFrame, h, State.setPn]

/-- TX.EMIT before the last byte advances `FI` (spec/41_framer.md R90). -/
theorem State.advanceFrame_middle {s : State} (h : s.atLastByte = false) :
    s.advanceFrame = { s with fi := s.fi + 1#9 } := by
  simp [State.advanceFrame, h]

end Sys2Proof.Machine
end

