-- ==== Sys2Proof/Laws/Memory.lean ====
section
/-! SUPPORT. The payload buffer: read after write, writes leave other entries alone, every operation keeps the canonical
form, and buffers that read alike are equal. -/

namespace Sys2Proof.Machine

@[simp] theorem Memory.read_nil (a : Nat) : Memory.read a [] = none := rfl

theorem Memory.read_cons (a k : Nat) (v : Byte) (m : Memory) :
    Memory.read a ((k, v) :: m) = if a = k then some v else Memory.read a m := rfl

@[simp] theorem Memory.read_write_same (a : Nat) (v : Byte) (m : Memory) : (m.write a v).read a = some v := by
  induction m with
  | nil => simp [Memory.write, Memory.read]
  | cons cell m ih =>
    obtain ⟨k, x⟩ := cell
    simp only [Memory.write]
    split
    · simp [Memory.read]
    · split
      · simp [Memory.read]
      · next h => simp [Memory.read, h, ih]

theorem Memory.read_write_other {a b : Nat} (h : a ≠ b) (v : Byte) (m : Memory) : (m.write b v).read a = m.read a := by
  induction m with
  | nil => simp [Memory.write, Memory.read, h]
  | cons cell m ih =>
    obtain ⟨k, x⟩ := cell
    simp only [Memory.write]
    split
    · simp [Memory.read, h]
    · split
      · next hk => subst hk; simp [Memory.read, h]
      · simp [Memory.read, ih]

theorem Memory.read_below (a n : Nat) (m : Memory) : (m.below n).read a = if a < n then m.read a else none := by
  induction m with
  | nil => simp [Memory.below]
  | cons cell m ih =>
    obtain ⟨k, x⟩ := cell
    simp only [Memory.below, List.filter_cons] at ih ⊢
    by_cases hk : k < n
    · simp only [hk, decide_true, if_true, Memory.read, ih]
      by_cases ha : a = k
      · simp [ha, hk]
      · simp [ha]
    · simp only [hk, decide_false, Bool.false_eq_true, if_false, ih, Memory.read]
      by_cases ha : a = k
      · simp [ha, hk]
      · simp [ha]

theorem Memory.read_writeBytes (a b : Nat) (bs : List Byte) (m : Memory) :
    (Memory.writeBytes b bs m).read a = if b ≤ a ∧ a < b + bs.length then bs[a - b]? else m.read a := by
  induction bs generalizing b m with
  | nil =>
    have h : ¬ (b ≤ a ∧ a < b + ([] : List Byte).length) := by simp
    rw [if_neg h]; rfl
  | cons x bs ih =>
    simp only [Memory.writeBytes, ih, List.length_cons]
    by_cases hab : a = b
    · subst hab
      simp
    · rw [Memory.read_write_other hab]
      by_cases h : b + 1 ≤ a ∧ a < b + 1 + bs.length
      · have h' : b ≤ a ∧ a < b + (bs.length + 1) := by omega
        have hs : a - b = (a - (b + 1)) + 1 := by omega
        rw [if_pos h, if_pos h', hs, List.getElem?_cons_succ]
      · have h' : ¬ (b ≤ a ∧ a < b + (bs.length + 1)) := by omega
        rw [if_neg h, if_neg h']

/-! ## The canonical form -/

theorem Memory.wfFrom_mono {lo lo' : Nat} (h : lo' ≤ lo) {m : Memory} (hm : Memory.wfFrom lo m = true) :
    Memory.wfFrom lo' m = true := by
  cases m with
  | nil => rfl
  | cons cell m =>
    obtain ⟨k, x⟩ := cell
    simp only [Memory.wfFrom, Bool.and_eq_true, decide_eq_true_eq] at hm ⊢
    exact ⟨⟨by omega, hm.1.2⟩, hm.2⟩

theorem Memory.wfFrom_write {lo a : Nat} (ha : lo ≤ a) (hb : a < 255) (v : Byte) {m : Memory}
    (hm : Memory.wfFrom lo m = true) : Memory.wfFrom lo (m.write a v) = true := by
  induction m generalizing lo with
  | nil => simp [Memory.write, Memory.wfFrom, ha, hb]
  | cons cell m ih =>
    obtain ⟨k, x⟩ := cell
    simp only [Memory.wfFrom, Bool.and_eq_true, decide_eq_true_eq] at hm
    simp only [Memory.write]
    split
    · simp only [Memory.wfFrom, Bool.and_eq_true, decide_eq_true_eq]
      exact ⟨⟨ha, hb⟩, ⟨by omega, hm.1.2⟩, hm.2⟩
    · split
      · next h =>
        subst h
        simp only [Memory.wfFrom, Bool.and_eq_true, decide_eq_true_eq]
        exact ⟨⟨ha, hb⟩, hm.2⟩
      · have := ih (lo := k + 1) (by omega) hm.2
        simp only [Memory.wfFrom, Bool.and_eq_true, decide_eq_true_eq]
        exact ⟨⟨hm.1.1, hm.1.2⟩, this⟩

/-- A write inside the index range keeps the canonical form. -/
theorem Memory.wf_write {a : Nat} (ha : a < 255) (v : Byte) {m : Memory} (hm : m.wf = true) : (m.write a v).wf = true :=
  Memory.wfFrom_write (Nat.zero_le a) ha v hm

theorem Memory.wf_writeBytes {a : Nat} {bs : List Byte} (h : a + bs.length ≤ 255) {m : Memory} (hm : m.wf = true) :
    (Memory.writeBytes a bs m).wf = true := by
  induction bs generalizing a m with
  | nil => exact hm
  | cons b bs ih =>
    simp only [List.length_cons] at h
    exact ih (by omega) (Memory.wf_write (by omega) b hm)

theorem Memory.wfFrom_below {lo : Nat} (n : Nat) {m : Memory} (hm : Memory.wfFrom lo m = true) :
    Memory.wfFrom lo (m.below n) = true := by
  induction m generalizing lo with
  | nil => rfl
  | cons cell m ih =>
    obtain ⟨k, x⟩ := cell
    simp only [Memory.wfFrom, Bool.and_eq_true, decide_eq_true_eq] at hm
    have h := ih hm.2
    simp only [Memory.below, List.filter_cons] at h ⊢
    split
    · simp only [Memory.wfFrom, Bool.and_eq_true, decide_eq_true_eq]; exact ⟨hm.1, h⟩
    · exact Memory.wfFrom_mono (by omega) h

/-- Writing `PN` keeps the canonical form of the buffer. -/
theorem Memory.wf_below (n : Nat) {m : Memory} (hm : m.wf = true) : (m.below n).wf = true := Memory.wfFrom_below n hm

/-- The buffer at reset has the canonical form. -/
theorem State.reset_pb_wf : State.reset.pb.wf = true := rfl

theorem Memory.read_of_lt_wfFrom {lo a : Nat} (h : a < lo) {m : Memory} (hm : Memory.wfFrom lo m = true) : m.read a = none := by
  induction m generalizing lo with
  | nil => rfl
  | cons cell m ih =>
    obtain ⟨k, x⟩ := cell
    simp only [Memory.wfFrom, Bool.and_eq_true, decide_eq_true_eq] at hm
    have hk : a ≠ k := by omega
    simp only [Memory.read, hk, if_false]
    exact ih (by omega) hm.2

theorem Memory.eq_of_read_eq_wfFrom {lo : Nat} {m m' : Memory} (hm : Memory.wfFrom lo m = true)
    (hm' : Memory.wfFrom lo m' = true) (h : ∀ a, m.read a = m'.read a) : m = m' := by
  induction m generalizing m' lo with
  | nil =>
    cases m' with
    | nil => rfl
    | cons cell m' => obtain ⟨k, x⟩ := cell; simpa [Memory.read] using h k
  | cons cell m ih =>
    obtain ⟨k, x⟩ := cell
    cases m' with
    | nil => simpa [Memory.read] using h k
    | cons cell' m' =>
      obtain ⟨k', x'⟩ := cell'
      simp only [Memory.wfFrom, Bool.and_eq_true, decide_eq_true_eq] at hm hm'
      have hkk : k = k' := by
        rcases Nat.lt_trichotomy k k' with hlt | heq | hgt
        · have h1 := h k
          rw [Memory.read_cons, Memory.read_cons, if_pos rfl, if_neg (by omega),
            Memory.read_of_lt_wfFrom (by omega) hm'.2] at h1
          cases h1
        · exact heq
        · have h1 := h k'
          rw [Memory.read_cons, Memory.read_cons, if_pos rfl, if_neg (by omega),
            Memory.read_of_lt_wfFrom (by omega) hm.2] at h1
          cases h1
      subst hkk
      have hx := h k
      simp only [Memory.read_cons, if_true, Option.some.injEq] at hx
      subst hx
      have ht : m = m' := ih hm.2 hm'.2 (fun a => by
        by_cases hak : a = k
        · subst hak
          rw [Memory.read_of_lt_wfFrom (by omega) hm.2, Memory.read_of_lt_wfFrom (by omega) hm'.2]
        · simpa [Memory.read, hak] using h a)
      rw [ht]

/-- Buffers in canonical form that read alike are equal data. -/
theorem Memory.eq_of_read_eq {m m' : Memory} (hm : m.wf = true) (hm' : m'.wf = true) (h : ∀ a, m.read a = m'.read a) :
    m = m' := Memory.eq_of_read_eq_wfFrom hm hm' h

/-! ## The buffer that holds exactly the entries 0 to n - 1 -/

/-- The buffer with the bytes `p` at the indexes from `a`. -/
def Memory.ofBytes (a : Nat) : List Byte → Memory
  | [] => []
  | b :: bs => (a, b) :: Memory.ofBytes (a + 1) bs

theorem Memory.ofBytes_keys (a : Nat) (p : List Byte) : (Memory.ofBytes a p).map Prod.fst = List.range' a p.length := by
  induction p generalizing a with
  | nil => rfl
  | cons b bs ih => simp [Memory.ofBytes, ih, List.range'_succ]

theorem Memory.exists_ofBytes {a n : Nat} {m : Memory} (h : m.map Prod.fst = List.range' a n) :
    ∃ p : List Byte, p.length = n ∧ m = Memory.ofBytes a p := by
  induction m generalizing a n with
  | nil =>
    cases n with
    | zero => exact ⟨[], rfl, rfl⟩
    | succ n => simp [List.range'_succ] at h
  | cons cell m ih =>
    obtain ⟨k, x⟩ := cell
    cases n with
    | zero => simp at h
    | succ n =>
      simp only [List.map_cons, List.range'_succ, List.cons.injEq] at h
      obtain ⟨p, hp, rfl⟩ := ih h.2
      exact ⟨x :: p, by simp [hp], by simp [Memory.ofBytes, h.1]⟩

theorem Memory.read_ofBytes (a i : Nat) (p : List Byte) :
    (Memory.ofBytes a p).read i = if a ≤ i then p[i - a]? else none := by
  induction p generalizing a with
  | nil => simp [Memory.ofBytes]
  | cons b bs ih =>
    simp only [Memory.ofBytes, Memory.read, ih]
    rcases Nat.lt_trichotomy i a with h | h | h
    · rw [if_neg (by omega), if_neg (by omega), if_neg (by omega)]
    · subst h; simp
    · have hs : i - a = (i - (a + 1)) + 1 := by omega
      rw [if_neg (by omega), if_pos (by omega), if_pos (by omega), hs, List.getElem?_cons_succ]

theorem Memory.write_ofBytes (a : Nat) (p : List Byte) (b : Byte) :
    (Memory.ofBytes a p).write (a + p.length) b = Memory.ofBytes a (p ++ [b]) := by
  induction p generalizing a with
  | nil => rfl
  | cons x p ih =>
    have h : a + (x :: p).length = (a + 1) + p.length := by simp; omega
    simp only [Memory.ofBytes, Memory.write, List.cons_append, h]
    rw [if_neg (by omega), if_neg (by omega), ih]

theorem Memory.writeBytes_ofBytes (p q : List Byte) :
    Memory.writeBytes p.length q (Memory.ofBytes 0 p) = Memory.ofBytes 0 (p ++ q) := by
  induction q generalizing p with
  | nil => simp [Memory.writeBytes]
  | cons b q ih =>
    have h := Memory.write_ofBytes 0 p b
    rw [Nat.zero_add] at h
    have := ih (p ++ [b])
    simp only [List.length_append, List.length_singleton, List.append_assoc, List.singleton_append] at this
    rw [Memory.writeBytes, h, this]

theorem Memory.below_ofBytes {a n : Nat} {p : List Byte} (h : a + p.length ≤ n) :
    (Memory.ofBytes a p).below n = Memory.ofBytes a p := by
  induction p generalizing a with
  | nil => rfl
  | cons b p ih =>
    simp only [List.length_cons] at h
    have := ih (a := a + 1) (by omega)
    simp only [Memory.below, Memory.ofBytes] at this ⊢
    rw [List.filter_cons, if_pos (by simp; omega), this]

theorem Memory.wfFrom_ofBytes {a : Nat} {p : List Byte} (h : a + p.length ≤ 255) :
    Memory.wfFrom a (Memory.ofBytes a p) = true := by
  induction p generalizing a with
  | nil => rfl
  | cons b p ih =>
    simp only [List.length_cons] at h
    simp only [Memory.ofBytes, Memory.wfFrom, Bool.and_eq_true, decide_eq_true_eq]
    exact ⟨⟨Nat.le_refl a, by omega⟩, ih (by omega)⟩

/-- A state whose buffer is filled holds some `PN` bytes, in order. -/
theorem State.BufferFilled.exists_bytes {s : State} (h : s.BufferFilled) :
    ∃ p : List Byte, p.length = s.pn.toNat ∧ s.pb = Memory.ofBytes 0 p := by
  rw [State.BufferFilled, List.range_eq_range'] at h
  exact Memory.exists_ofBytes h

theorem Memory.filterMap_range_getElem (p : List Byte) : (List.range p.length).filterMap (fun a => p[a]?) = p := by
  induction p with
  | nil => rfl
  | cons b p ih =>
    rw [List.length_cons, List.range_succ_eq_map, List.filterMap_cons]
    simp only [List.getElem?_cons_zero, List.filterMap_map]
    congr 1

/-- The payload of a state whose buffer holds the bytes `p`. -/
theorem State.payload_of_pb {s : State} {p : List Byte} (hl : p.length = s.pn.toNat) (hp : s.pb = Memory.ofBytes 0 p) :
    s.payload = p := by
  have h : (fun a => s.pb.read a) = fun a => p[a]? := by
    funext a; rw [hp, Memory.read_ofBytes]; simp
  rw [State.payload, h, ← hl, Memory.filterMap_range_getElem]

/-- A filled buffer is the payload, entry after entry. -/
theorem State.BufferFilled.pb_eq {s : State} (h : s.BufferFilled) : s.pb = Memory.ofBytes 0 s.payload := by
  obtain ⟨p, hl, hp⟩ := h.exists_bytes
  rw [State.payload_of_pb hl hp, hp]

theorem State.BufferFilled.length_payload {s : State} (h : s.BufferFilled) : s.payload.length = s.pn.toNat := by
  obtain ⟨p, hl, hp⟩ := h.exists_bytes
  rw [State.payload_of_pb hl hp, hl]

/-- A buffer that holds `PN` bytes is filled. -/
theorem State.bufferFilled_of_bytes {s : State} {p : List Byte} (hl : p.length = s.pn.toNat)
    (hp : s.pb = Memory.ofBytes 0 p) : s.BufferFilled := by
  rw [State.BufferFilled, hp, Memory.ofBytes_keys, hl, List.range_eq_range']

/-- A filled buffer has the canonical form. -/
theorem State.BufferFilled.wf {s : State} (h : s.BufferFilled) : s.pb.wf = true := by
  rw [h.pb_eq]
  exact Memory.wfFrom_ofBytes (by rw [h.length_payload]; omega)

end Sys2Proof.Machine
end

