-- ==== Sys2Proof/Laws/Ops.lean ====
section
/-! SUPPORT. For each shared operation, once, everything it can do. -/

namespace Sys2Proof.Machine

/-! ## The checks of a command step -/

theorem whenAccepted_send {s : State} (h : s.ph = .send) (run : State → Result) : whenAccepted s run = .refused .held := by
  simp [whenAccepted, h]

theorem whenAccepted_run {s : State} (h : s.ph ≠ .send) (run : State → Result) : whenAccepted s run = run s := by
  cases hp : s.ph <;> simp_all [whenAccepted]

theorem whenLegal_mem {legal : List Phase} {s : State} (h : s.ph ∈ legal) (run : State → State) :
    whenLegal legal s run = .next (run s) := by simp [whenLegal, h]

theorem whenLegal_not_mem {legal : List Phase} {s : State} (h : s.ph ∉ legal) (run : State → State) :
    whenLegal legal s run = .next (s.raise .seq) := by simp [whenLegal, h]

theorem whenLegal_next {legal : List Phase} {s t : State} {run : State → State} (h : whenLegal legal s run = .next t) :
    (s.ph ∈ legal ∧ t = run s) ∨ (s.ph ∉ legal ∧ t = s.raise .seq) := by
  by_cases hm : s.ph ∈ legal
  · rw [whenLegal_mem hm] at h; cases h; exact .inl ⟨hm, rfl⟩
  · rw [whenLegal_not_mem hm] at h; cases h; exact .inr ⟨hm, rfl⟩

theorem commandStep_send {legal : List Phase} {s : State} (h : s.ph = .send) (run : State → State) :
    commandStep legal s run = .refused .held := whenAccepted_send h _

theorem commandStep_run {legal : List Phase} {s : State} (hs : s.ph ≠ .send) (h : s.ph ∈ legal) (run : State → State) :
    commandStep legal s run = .next (run s) := by
  rw [commandStep, whenAccepted_run hs, whenLegal_mem h]

theorem commandStep_seq {legal : List Phase} {s : State} (hs : s.ph ≠ .send) (h : s.ph ∉ legal) (run : State → State) :
    commandStep legal s run = .next (s.raise .seq) := by
  rw [commandStep, whenAccepted_run hs, whenLegal_not_mem h]

/-- A command step that answers a next state ran its rule in a legal phase or raised SEQ in another; never in SEND. -/
theorem commandStep_next {legal : List Phase} {s t : State} {run : State → State}
    (h : commandStep legal s run = .next t) :
    s.ph ≠ .send ∧ ((s.ph ∈ legal ∧ t = run s) ∨ (s.ph ∉ legal ∧ t = s.raise .seq)) := by
  by_cases hs : s.ph = .send
  · rw [commandStep_send hs] at h; cases h
  · rw [commandStep, whenAccepted_run hs] at h
    exact ⟨hs, whenLegal_next h⟩

/-! ## TX.EMIT -/

/-- TX.EMIT answers a next state exactly in phase SEND with a defined symbol, and then it is this one. -/
theorem emitNext_next {s t : State} :
    emitNext s = .next t ↔ s.ph = .send ∧ ∃ y, s.nextSymbol = some y ∧ t = State.putSymbol y s.advanceFrame := by
  unfold emitNext
  cases hp : s.ph <;> cases hn : s.nextSymbol <;> simp [eq_comm]

theorem emitNext_send {s : State} (h : s.ph = .send) {y : TxSym} (hy : s.nextSymbol = some y) :
    emitNext s = .next (State.putSymbol y s.advanceFrame) := emitNext_next.mpr ⟨h, y, hy, rfl⟩

theorem emitNext_not_send {s : State} (h : s.ph ≠ .send) : emitNext s = .refused .nothingToEmit := by
  cases hp : s.ph <;> simp_all [emitNext]

@[simp] theorem emitTimes_zero (s : State) : emitTimes 0 s = .next s := rfl

theorem emitTimes_succ {k : Nat} {s t : State} (h : emitNext s = .next t) : emitTimes (k + 1) s = emitTimes k t := by
  simp [emitTimes, h]

/-- `j + k` TX.EMIT steps are `j` and then `k`. -/
theorem emitTimes_add {j k : Nat} {s t : State} (h : emitTimes j s = .next t) : emitTimes (j + k) s = emitTimes k t := by
  induction j generalizing s with
  | zero => cases h; simp
  | succ j ih =>
    rw [Nat.succ_add]
    cases he : emitNext s with
    | next u => rw [emitTimes_succ he] at h ⊢; exact ih h
    | fault r => simp [emitTimes, he] at h
    | refused r => simp [emitTimes, he] at h

/-- For the frame in flight, a step of the frame is TX.EMIT. -/
theorem emitFrame_inFlight {bytes : List Byte} {s : State} (hs : s.ph = .send) (hb : s.frameBytes = some bytes) :
    emitFrame bytes s = emitNext s := by simp [emitFrame, hs, hb]

/-- A step of a frame answers a next state exactly when it is the frame in flight and TX.EMIT answers that state. -/
theorem emitFrame_next {bytes : List Byte} {s t : State} :
    emitFrame bytes s = .next t ↔ s.ph = .send ∧ s.frameBytes = some bytes ∧ emitNext s = .next t := by
  cases hp : s.ph with
  | idle => simp [emitFrame, hp]
  | build => simp [emitFrame, hp]
  | send =>
    cases hb : s.frameBytes with
    | none => simp [emitFrame, hp, hb]
    | some now =>
      by_cases hn : now = bytes
      · subst hn; simp [emitFrame, hp, hb]
      · simp [emitFrame, hp, hb, hn]

/-! ## The wire frame in the registers -/

theorem State.frameByte_zero (s : State) : s.frameByte 0 = some s.cfg.startByte := by simp [State.frameByte]

theorem State.frameByte_one (s : State) : s.frameByte 1 = some s.pn := by simp [State.frameByte]

theorem State.frameByte_payload {s : State} {i : Nat} (h2 : 2 ≤ i) (h : i ≤ s.pn.toNat + 1) :
    s.frameByte i = s.pb.read (i - 2) := by
  rw [State.frameByte, if_neg (by omega), if_neg (by omega), if_pos h]

theorem State.frameByte_crcHi {s : State} (h : 1 ≤ s.pn.toNat) :
    s.frameByte (s.pn.toNat + 2) = some (hiByte s.crcOut) := by
  rw [State.frameByte, if_neg (by omega), if_neg (by omega), if_neg (by omega), if_pos rfl]

theorem State.frameByte_crcLo {s : State} (h : 1 ≤ s.pn.toNat) :
    s.frameByte (s.pn.toNat + 3) = some (loByte s.crcOut) := by
  rw [State.frameByte, if_neg (by omega), if_neg (by omega), if_neg (by omega), if_neg (by omega), if_pos rfl]

theorem State.frameByte_end {s : State} (h : 1 ≤ s.pn.toNat) : s.frameByte (s.pn.toNat + 4) = some s.cfg.endByte := by
  rw [State.frameByte, if_neg (by omega), if_neg (by omega), if_neg (by omega), if_neg (by omega), if_neg (by omega),
    if_pos rfl]

theorem State.frameByte_beyond {s : State} {i : Nat} (h : s.pn.toNat + 4 < i) : s.frameByte i = none := by
  rw [State.frameByte, if_neg (by omega), if_neg (by omega), if_neg (by omega), if_neg (by omega), if_neg (by omega),
    if_neg (by omega)]

@[simp] theorem frameSymbols_length (bs : List Byte) : (frameSymbols bs).length = bs.length := by
  induction bs with
  | nil => rfl
  | cons b bs ih =>
    cases bs with
    | nil => rfl
    | cons c bs => simpa [frameSymbols] using ih

@[simp] theorem wireFrame_length (cfg : Config) (p : List Byte) (c : BitVec 16) :
    (wireFrame cfg p c).length = p.length + 5 := by simp [wireFrame]

/-! ## One step of the machine -/

/-- Whether an agent's step is enabled does not depend on the list of turns. -/
@[simp] theorem enabled_turns (s : State) (ts : List Turn) (t : Turn) : enabled { s with turns := ts } t = enabled s t := by
  cases t <;> rfl

/-- A step that answers: the agents before the mover were disabled, the mover was enabled and took its turn. -/
theorem stepTurns_cases {ts : List Turn} {s : State} :
    (∃ pre t post, ts = pre ++ t :: post ∧ (∀ u ∈ pre, enabled s u = false) ∧ enabled s t = true ∧
      stepTurns ts s = takeTurn t { s with turns := post }) ∨
    ((∀ u ∈ ts, enabled s u = false) ∧ stepTurns ts s = .refused .noStepEnabled) := by
  induction ts with
  | nil => exact .inr ⟨by simp, rfl⟩
  | cons t ts ih =>
    by_cases ht : enabled s t = true
    · exact .inl ⟨[], t, ts, rfl, by simp, ht, by simp [stepTurns, ht]⟩
    · have hf : enabled s t = false := by simpa using ht
      have hs : stepTurns (t :: ts) s = stepTurns ts s := by simp [stepTurns, hf]
      rcases ih with ⟨pre, u, post, rfl, hpre, hu, hst⟩ | ⟨hall, hst⟩
      · refine .inl ⟨t :: pre, u, post, rfl, ?_, hu, hs.trans hst⟩
        intro v hv
        rcases List.mem_cons.mp hv with rfl | hv
        · exact hf
        · exact hpre v hv
      · refine .inr ⟨?_, hs.trans hst⟩
        intro v hv
        rcases List.mem_cons.mp hv with rfl | hv
        · exact hf
        · exact hall v hv

theorem stepTurns_enabled {t : Turn} {ts : List Turn} {s : State} (h : enabled s t = true) :
    stepTurns (t :: ts) s = takeTurn t { s with turns := ts } := by simp [stepTurns, h]

theorem stepTurns_disabled {t : Turn} {ts : List Turn} {s : State} (h : enabled s t = false) :
    stepTurns (t :: ts) s = stepTurns ts s := by simp [stepTurns, h]

/-- Everything an enabled command step can do: the word offered decodes and its instruction runs, or it is ILLEGAL. -/
theorem takeTurn_command {s : State} {w : CmdWord} {ws : List CmdWord} (h : s.cmd = w :: ws) :
    (∃ i, decodeCommand w = .ok i ∧
      takeTurn .command s = exec i { s with cmd := ws, accepted := s.accepted ++ [w] }) ∨
    (∃ e, decodeCommand w = .error e ∧
      takeTurn .command s = .next (State.raise .illegal { s with cmd := ws, accepted := s.accepted ++ [w] })) := by
  cases hd : decodeCommand w with
  | ok i => exact .inl ⟨i, rfl, by simp [takeTurn, fetch, retire, decode, h, hd]⟩
  | error e => exact .inr ⟨e, rfl, by simp [takeTurn, fetch, retire, decode, h, hd]⟩

/-- The symbol a TX.EMIT step takes from the registers, put into a symbol again, is itself. -/
theorem txSymbol_split (y : TxSym) : txSymbol (y.getLsbD 8) (y.extractLsb' 0 8) = y := by
  revert y; decide +kernel

/-- An enabled TX.EMIT step is `emitNext`. -/
theorem takeTurn_emit (s : State) (h : s.ph = .send) : takeTurn .emit s = emitNext s := by
  cases hn : s.nextSymbol with
  | none => simp [takeTurn, fetch, hn, emitNext, h]
  | some y =>
    simp only [takeTurn, fetch, hn, decode, decodeSymbol, exec, execTxEmit, retire, Option.map_some, txSymbol_split,
      ne_eq, not_true_eq_false, and_false, if_false]

theorem takeTurn_reset (s : State) : takeTurn .reset s = .next s.resetRegisters := rfl

end Sys2Proof.Machine
end

