-- ==== Sys2Proof/Laws/Bits.lean ====
section
/-! SUPPORT. Fields of words and their concatenation: taking apart what was put together and putting together what was taken
apart. -/

namespace Sys2Proof.Machine

theorem extractLsb'_append_hi {n m : Nat} (x : BitVec n) (y : BitVec m) : (x ++ y).extractLsb' m n = x := by
  apply BitVec.eq_of_getLsbD_eq
  intro i hi
  simp [BitVec.getLsbD_append, hi]

theorem extractLsb'_append_lo {n m : Nat} (x : BitVec n) (y : BitVec m) : (x ++ y).extractLsb' 0 m = y := by
  apply BitVec.eq_of_getLsbD_eq
  intro i hi
  simp [BitVec.getLsbD_append, hi]

theorem extractLsb'_join {n a b : Nat} (x : BitVec n) (lo : Nat) :
    x.extractLsb' (lo + b) a ++ x.extractLsb' lo b = x.extractLsb' lo (a + b) :=
  BitVec.extractLsb'_append_extractLsb'_eq_extractLsb' rfl

@[simp] theorem opcodeField_append (o : BitVec 8) (d : BitVec 64) : opcodeField (o ++ d) = o := extractLsb'_append_hi o d

@[simp] theorem operandField_append (o : BitVec 8) (d : BitVec 64) : operandField (o ++ d) = d :=
  extractLsb'_append_lo o d

/-- A command word is its opcode and its operand field (spec/30_encoding.md R45). -/
theorem opcodeField_append_operandField (w : CmdWord) : opcodeField w ++ operandField w = w := by
  simpa [opcodeField, operandField] using extractLsb'_join (a := 8) (b := 64) w 0

@[simp] theorem byteOperand_append (z : BitVec 56) (b : Byte) : byteOperand (z ++ b) = b := extractLsb'_append_lo z b

@[simp] theorem byteOperandZeros_append (z : BitVec 56) (b : Byte) : byteOperandZeros (z ++ b) = z :=
  extractLsb'_append_hi z b

/-- An operand field is its upper 56 bits and its byte (spec/30_encoding.md R46). -/
theorem byteOperandZeros_append_byteOperand (d : BitVec 64) : byteOperandZeros d ++ byteOperand d = d := by
  simpa [byteOperandZeros, byteOperand] using extractLsb'_join (a := 56) (b := 8) d 0

@[simp] theorem hiByte_append (a b : Byte) : hiByte (a ++ b) = a := extractLsb'_append_hi a b

@[simp] theorem loByte_append (a b : Byte) : loByte (a ++ b) = b := extractLsb'_append_lo a b

/-- A 16-bit value is its two bytes (spec/20_memory.md R33). -/
@[simp] theorem hiByte_append_loByte (c : BitVec 16) : hiByte c ++ loByte c = c := by
  simpa [hiByte, loByte] using extractLsb'_join (a := 8) (b := 8) c 0

/-- The four bytes of `be32`, put together again (spec/20_memory.md R32). -/
theorem be32_join (d : BitVec 32) :
    (d.extractLsb' 24 8 ++ d.extractLsb' 16 8 ++ d.extractLsb' 8 8 ++ d.extractLsb' 0 8 : BitVec 32) = d := by
  have h1 := extractLsb'_join (a := 8) (b := 8) d 16
  have h2 := extractLsb'_join (a := 8 + 8) (b := 8) d 8
  have h3 := extractLsb'_join (a := 8 + 8 + 8) (b := 8) d 0
  rw [h1, h2, h3]
  simp

/-- A slice of a slice. -/
theorem extractLsb'_slice {n k m lo s : Nat} (h : lo + m ≤ k) (x : BitVec n) :
    (x.extractLsb' s k).extractLsb' lo m = x.extractLsb' (s + lo) m := by
  apply BitVec.eq_of_getLsbD_eq
  intro i hi
  have h1 : lo + i < k := by omega
  simp [hi, h1, Nat.add_assoc]

theorem be32_append (a b c d : Byte) : be32 (a ++ b ++ c ++ d : BitVec 32) = [a, b, c, d] := by
  have h0 : (a ++ b ++ c ++ d : BitVec 32).extractLsb' 0 8 = d := extractLsb'_append_lo (a ++ b ++ c) d
  have u8 : (a ++ b ++ c ++ d : BitVec 32).extractLsb' 8 24 = a ++ b ++ c := extractLsb'_append_hi (a ++ b ++ c) d
  have v0 : (a ++ b ++ c : BitVec 24).extractLsb' 0 8 = c := extractLsb'_append_lo (a ++ b) c
  have v8 : (a ++ b ++ c : BitVec 24).extractLsb' 8 16 = a ++ b := extractLsb'_append_hi (a ++ b) c
  have w0 : (a ++ b : BitVec 16).extractLsb' 0 8 = b := extractLsb'_append_lo a b
  have w8 : (a ++ b : BitVec 16).extractLsb' 8 8 = a := extractLsb'_append_hi a b
  rw [← v8, extractLsb'_slice (by omega), ← u8, extractLsb'_slice (by omega)] at w0 w8
  rw [← u8, extractLsb'_slice (by omega)] at v0
  simp only [be32, h0, v0, w0, w8]

@[simp] theorem txSymbol_last (last : Bool) (b : Byte) : (txSymbol last b).getLsbD 8 = last := by
  revert b; revert last; decide +kernel

@[simp] theorem txSymbol_byte (last : Bool) (b : Byte) : (txSymbol last b).extractLsb' 0 8 = b := by
  revert b; revert last; decide +kernel

/-- Two TX symbols are equal only if their marks and bytes are. -/
theorem txSymbol_inj {l l' : Bool} {b b' : Byte} (h : txSymbol l b = txSymbol l' b') : l = l' ∧ b = b' :=
  ⟨by rw [← txSymbol_last l b, h, txSymbol_last], by rw [← txSymbol_byte l b, h, txSymbol_byte]⟩

/-- Reading the fields of a written frame gives them back, for 1 to 255 payload bytes (spec/30_encoding.md R52). -/
theorem decodeFrame_wireFrame (cfg : Config) {p : List Byte} (c : BitVec 16) (h1 : 1 ≤ p.length) (h2 : p.length ≤ 255) :
    decodeFrame cfg (wireFrame cfg p c) = .ok (frameInstr cfg p c) := by
  have hn : (BitVec.ofNat 8 p.length).toNat = p.length := by simp; omega
  have hz : BitVec.ofNat 8 p.length ≠ 0#8 := by intro h; rw [h] at hn; simp at hn; omega
  simp only [wireFrame, decodeFrame, hn]
  simp [hz]

end Sys2Proof.Machine
end

