-- ==== Sys2Proof/Laws/Frame.lean ====
section
/-! SUPPORT. What the wire frame, the TX symbols, the invariants and one whole step look like from outside: the lemmas that
statements about frames and runs are proved from. -/

namespace Sys2Proof.Machine

/-! ## The wire frame and its symbols -/

/-- The byte at each wire index of a frame (spec/30_encoding.md R52). -/
theorem wireFrame_getElem? (cfg : Config) (p : List Byte) (c : BitVec 16) (i : Nat) :
    (wireFrame cfg p c)[i]? =
      if i = 0 then some cfg.startByte
      else if i = 1 then some (BitVec.ofNat 8 p.length)
      else if i ≤ p.length + 1 then p[i-2]?
      else if i = p.length + 2 then some (hiByte c)
      else if i = p.length + 3 then some (loByte c)
      else if i = p.length + 4 then some cfg.endByte else none := by
  simp only [wireFrame]
  rcases i with _ | _ | i
  · simp
  · simp
  · simp only [List.getElem?_cons_succ, Nat.add_eq_zero_iff, List.getElem?_append]
    by_cases h : i < p.length
    · rw [if_pos h, if_neg (by omega), if_neg (by omega), if_pos (by omega)]; simp
    · rw [if_neg h, if_neg (by omega), if_neg (by omega), if_neg (by omega)]
      by_cases h1 : i = p.length
      · simp [h1]
      · by_cases h2 : i = p.length + 1
        · simp [h2]
        · by_cases h3 : i = p.length + 2
          · simp [h3]
          · rw [if_neg (by omega), if_neg (by omega), if_neg (by omega)]
            have : ∃ j, i - p.length = j + 3 := ⟨i - p.length - 3, by omega⟩
            obtain ⟨j, hj⟩ := this
            rw [hj]; simp

/-- The TX symbol at each wire index: the byte, with `last` on the final one (R51). -/
theorem frameSymbols_getElem? (bs : List Byte) (i : Nat) : (frameSymbols bs)[i]? = bs[i]?.map (txSymbol (i + 1 == bs.length)) := by
  induction bs generalizing i with
  | nil => simp [frameSymbols]
  | cons b bs ih =>
    cases bs with
    | nil => cases i <;> simp [frameSymbols]
    | cons c bs =>
      cases i with
      | zero => simp [frameSymbols]
      | succ i => simp only [frameSymbols, List.getElem?_cons_succ, ih]; simp

/-- Collecting a list element by element through a partial function that agrees with it. -/
theorem mapM_range_eq {α : Type} (l : List α) (f : Nat → Option α) (h : ∀ i < l.length, f i = l[i]?) : (List.range l.length).mapM f = some l := by
  have gen : ∀ (k : Nat) (l : List α), (∀ i < l.length, f (k + i) = l[i]?) → (List.range' k l.length).mapM f = some l := by
    intro k l
    induction l generalizing k with
    | nil => intro _; rfl
    | cons x l ih =>
      intro h
      have h0 := h 0 (by simp)
      simp only [Nat.add_zero, List.getElem?_cons_zero] at h0
      have := ih (k+1) (fun i hi => by have := h (i+1) (by simp; omega); simpa [Nat.add_assoc, Nat.add_comm 1] using this)
      simp [List.range'_succ, h0, this]
  rw [List.range_eq_range']
  exact gen 0 l (by simpa using h)

/-- Folding two byte strings one after the other (R67). -/
theorem crcFold_append (c : BitVec 16) (m n : List Byte) : crcFold c (m ++ n) = crcFold (crcFold c m) n := by
  induction m generalizing c with
  | nil => rfl
  | cons b m ih => exact ih _

/-! ## The invariants -/

/-- The payload depends on `PN` and `PB` alone. -/
theorem State.payload_congr {s t : State} (h1 : t.pn = s.pn) (h2 : t.pb = s.pb) : t.payload = s.payload := by
  simp [State.payload, h1, h2]

/-- The invariants depend on the parameters and on `CRC`, `PH`, `PN`, `PB` and `FI` alone. -/
theorem State.inv_congr {s t : State} (hI : s.Inv) (h1 : t.cfg = s.cfg) (h2 : t.crc = s.crc) (h3 : t.ph = s.ph) (h4 : t.pn = s.pn) (h5 : t.pb = s.pb) (h6 : t.fi = s.fi) : t.Inv := by
  unfold State.Inv State.BufferFilled State.IdleClean State.BuildCrc State.SendFrozen at *
  rw [State.payload_congr h4 h5, h1, h2, h3, h4, h5, h6]; exact hI

/-- A cleared block in phase IDLE meets the invariants, whatever `CRC` holds. -/
theorem State.inv_idle {t : State} (hp : t.ph = .idle) (hn : t.pn = 0#8) (hb : t.pb = []) (hf : t.fi = 0#9) : t.Inv := by
  refine ⟨?_, ?_, ?_, ?_⟩
  · simp [State.BufferFilled, hb, hn]
  · intro _; exact ⟨hn, hf⟩
  · intro h; rw [hp] at h; cases h
  · intro h; rw [hp] at h; cases h

/-! ## Runs of TX.EMIT -/

/-- TX.EMIT neither reads nor writes the list of turns. -/
theorem emitNext_turns {u v : State} (l : List Turn) (h : emitNext u = .next v) : emitNext { u with turns := l } = .next { v with turns := l } := by
  obtain ⟨hs, y, hy, hv⟩ := emitNext_next.mp h
  refine emitNext_next.mpr ⟨hs, y, hy, ?_⟩
  rw [hv]
  cases hl : u.atLastByte with
  | true => rw [State.advanceFrame_last hl, State.advanceFrame_last (by exact hl)]; rfl
  | false => rw [State.advanceFrame_middle hl, State.advanceFrame_middle (by exact hl)]; rfl

/-- Nor do `k` of them. -/
theorem emitTimes_turns {k : Nat} {u t : State} (l : List Turn) (h : emitTimes k u = .next t) :
    emitTimes k { u with turns := l } = .next { t with turns := l } := by
  induction k generalizing u with
  | zero => cases h; rfl
  | succ k ih =>
    cases hn : emitNext u with
    | fault r => simp [emitTimes, hn] at h
    | refused r => simp [emitTimes, hn] at h
    | next v =>
      rw [emitTimes_succ hn] at h
      rw [emitTimes_succ (emitNext_turns l hn)]
      exact ih h

/-! ## One whole step -/

/-- A step: the mover takes its turn, or there is no mover and nothing happens. -/
theorem step_cases {s : State} : (∃ u post, s.mover = some u ∧ enabled s u = true ∧ step s = takeTurn u { s with turns := post } ∧ post <:+ s.turns) ∨ (s.mover = none ∧ step s = .refused .noStepEnabled) := by
  rcases stepTurns_cases (ts := s.turns) (s := s) with ⟨pre, u, post, hts, hpre, hu, hst⟩ | ⟨hall, hst⟩
  · refine .inl ⟨u, post, ?_, hu, hst, ⟨pre ++ [u], by simp [hts]⟩⟩
    rw [State.mover, hts, List.find?_append]
    rw [List.find?_eq_none.mpr (by intro v hv; simp [hpre v hv])]
    simp [hu]
  · refine .inr ⟨?_, hst⟩
    rw [State.mover]; exact List.find?_eq_none.mpr (by intro v hv; simp [hall v hv])

/-- A turn that answers a next state ran an instruction, or the word was ILLEGAL. -/
theorem takeTurn_next {t : Turn} {s u : State} (h : takeTurn t s = .next u) :
   (∃ i, exec i (retire s t) = .next u) ∨ u = (retire s t).raise .illegal := by
  unfold takeTurn at h
  split at h
  · cases h
  · split at h
    · exact .inl ⟨_, h⟩
    · cases h; exact .inr rfl

/-- A command word decodes to one of the nine commands. -/
theorem decodeCommand_isCommand {w : CmdWord} {i : Instr} (h : decodeCommand w = .ok i) : i.isCommand = true := by
  simp only [decodeCommand, decodeFormatN, decodeFormatB] at h
  repeat' split at h
  all_goals (first | (cases h; rfl) | cases h)

/-- With opcode 0x30 the only instruction is ST.RD. -/
theorem decodeCommand_status {w : CmdWord} {i : Instr} (ho : opcodeField w = 0x30#8) (h : decodeCommand w = .ok i) :
    i = .stRd := by
  have hd : decodeCommand w = decodeFormatN (operandField w) .stRd := by simp [decodeCommand, ho]
  rw [hd, decodeFormatN] at h
  split at h
  · exact (Except.ok.inj h).symm
  · cases h

end Sys2Proof.Machine
end

