-- ==== Sys2Proof/Laws/PerInstr.lean ====
section
/-! SUPPORT. Statements made per instruction. `RowSelects`: the word the encoder writes for a command is selected by the row
of the opcode map that bears the command's mnemonic (spec/30_encoding.md R47). -/

namespace Sys2Proof.Laws.RowSelects

/-- The word of a command is selected by the command's own row of R47; the other instructions have no command word. -/
def Statement (i : Instr) : Prop :=
  ∀ (cfg : Config) (w : CmdWord), encode cfg i = .command w →
    ∃ r ∈ opcodeMap, r.mnemonic = i.mnemonic ∧ r.selects w = true

theorem crcClr : Statement .crcClr := fun _ _ h => by
  cases h; exact ⟨_, List.getElem_mem (n := 0) (by decide), rfl, rfl⟩

theorem crcUpd (b : Byte) : Statement (.crcUpd b) := fun _ _ h => by
  cases h
  refine ⟨_, List.getElem_mem (n := 1) (by decide), rfl, ?_⟩
  revert b; decide +kernel

theorem crcRd : Statement .crcRd := fun _ _ h => by
  cases h; exact ⟨_, List.getElem_mem (n := 2) (by decide), rfl, rfl⟩

theorem frmBegin : Statement .frmBegin := fun _ _ h => by
  cases h; exact ⟨_, List.getElem_mem (n := 3) (by decide), rfl, rfl⟩

theorem frmPush (b : Byte) : Statement (.frmPush b) := fun _ _ h => by
  cases h
  refine ⟨_, List.getElem_mem (n := 4) (by decide), rfl, ?_⟩
  revert b; decide +kernel

theorem frmSend : Statement .frmSend := fun _ _ h => by
  cases h; exact ⟨_, List.getElem_mem (n := 5) (by decide), rfl, rfl⟩

theorem frmAbort : Statement .frmAbort := fun _ _ h => by
  cases h; exact ⟨_, List.getElem_mem (n := 6) (by decide), rfl, rfl⟩

theorem cmdDuty (d : BitVec 64) : Statement (.cmdDuty d) := fun _ _ h => by
  cases h
  refine ⟨_, List.getElem_mem (n := 7) (by decide), rfl, ?_⟩
  have hm : (0xFF0000000000000000#72 : CmdWord) = 0xFF#8 ++ 0#64 := by decide
  have hp : (0x200000000000000000#72 : CmdWord) = 0x20#8 ++ 0#64 := by decide
  have ha : (0x20#8 ++ d) &&& (0xFF#8 ++ 0#64) = 0x20#8 ++ 0#64 := by
    rw [BitVec.and_append]; simp
  change ((0x20#8 ++ d) &&& (0xFF0000000000000000#72 : CmdWord) == (0x200000000000000000#72 : CmdWord)) = true
  rw [hm, hp, ha]; simp

theorem stRd : Statement .stRd := fun _ _ h => by
  cases h; exact ⟨_, List.getElem_mem (n := 8) (by decide), rfl, rfl⟩

theorem txEmit (last : Bool) (b : Byte) : Statement (.txEmit last b) := fun _ _ h => by cases h

theorem reset : Statement .reset := fun _ _ h => by cases h

theorem frameSetDuty (d : BitVec 32) (c : BitVec 16) : Statement (.frameSetDuty d c) := fun _ _ h => by cases h

theorem frameW (p : List Byte) (c : BitVec 16) : Statement (.frameW p c) := fun _ _ h => by cases h

end Sys2Proof.Laws.RowSelects
end

