-- ==== Sys2Proof/Laws/Scale.lean ====
section
/-! SUPPORT. The parameter `ScaleFn`: a table gives every function of the operand (spec/00_scope.md R5; log 3). -/

namespace Sys2Proof.Machine

@[simp] theorem scaleFn_table (cfg : Config) (rows : List (BitVec 64 × Int)) (d : BitVec 64) :
    scaleFn { cfg with scaleFn := .table rows } d =
      scaleTable (rne64 (scaledProduct cfg.dutyScale d)).trunc d rows := rfl

/-- A table that lists the values of `f` at the patterns `ds` answers `f` at each of them. -/
theorem scaleTable_graph (f : BitVec 64 → Int) (z : Int) {d : BitVec 64} {ds : List (BitVec 64)} (h : d ∈ ds) :
    scaleTable z d (ds.map (fun x => (x, f x))) = f d := by
  induction ds with
  | nil => cases h
  | cons x ds ih =>
    rw [List.map_cons, scaleTable]
    split
    · next hx => rw [hx]
    · next hx => exact ih ((List.mem_cons.mp h).resolve_left hx)

/-- A pattern that no row lists is scaled by the default. -/
theorem scaleTable_unlisted (z : Int) {d : BitVec 64} {rows : List (BitVec 64 × Int)} (h : ∀ row ∈ rows, row.1 ≠ d) :
    scaleTable z d rows = z := by
  induction rows with
  | nil => rfl
  | cons row rows ih =>
    rw [scaleTable, if_neg (fun hd => h row List.mem_cons_self hd.symm)]
    exact ih (fun r hr => h r (List.mem_cons_of_mem _ hr))

/-- Every function from operands to integers is the `ScaleFn` of some instance; one with 32-bit values, of an instance whose
table fits (R160). -/
theorem scaleFn_every_function (cfg : Config) (f : BitVec 64 → Int) :
    ∃ rows, (∀ d, scaleFn { cfg with scaleFn := .table rows } d = f d) ∧
      ((∀ d, -(2 ^ 31) ≤ f d ∧ f d < 2 ^ 31) → (ScaleReading.table rows).fits = true) := by
  refine ⟨(Finset.univ : Finset (BitVec 64)).toList.map (fun x => (x, f x)), fun d => ?_, fun hf => ?_⟩
  · rw [scaleFn_table]
    exact scaleTable_graph f _ (Finset.mem_toList.mpr (Finset.mem_univ d))
  · simpa [ScaleReading.fits] using hf

end Sys2Proof.Machine
end

