-- ==== Sys2Proof/Tests/Slice0.lean ====
section
/-! SUPPORT. The model's own tests. Expected values come from spec/: the examples of the rules and the tables of
95_test_vectors.md, named in each comment. Then, for each statement with hypotheses, operands that meet them. -/

namespace Sys2Proof.Machine

-- one theorem at a time: many kernel evaluations at once ask for more threads than the check's memory limit allows
set_option Elab.async false

/-- A next state, with `f` of it. -/
def nextIs (r : Result) (f : State → Bool) : Bool :=
  match r with
  | .next t => f t
  | .fault _ => false
  | .refused _ => false

/-- The state after some instructions from the reset state (the reset state itself where one of them stops). -/
def reach (is : List Instr) : State :=
  match execAll is State.reset with
  | .next t => t
  | .fault _ => State.reset
  | .refused _ => State.reset

/-- Phase IDLE with a standalone CRC left in `CRC` (R69, example). -/
def idleCrc : State := { State.reset with crc := 0x31C3#16 }

/-- Phase BUILD, no byte yet. -/
def built0 : State := reach [.frmBegin]

/-- Phase BUILD, one byte 0x1E. -/
def built1 : State := reach [.frmBegin, .frmPush 0x1E#8]

/-- Phase BUILD, 255 bytes held (their values do not matter to the LEN check). -/
def built255 : State := { State.reset with ph := .build, pn := 255#8 }

/-- Phase SEND, the six-byte frame of 0x1E, no byte out. -/
def sent1 : State := reach [.frmBegin, .frmPush 0x1E#8, .frmSend]

/-- Phase SEND, the frame of CMD.DUTY 0.5, `k` bytes out. -/
def sentDuty (k : Nat) : State :=
  match emitTimes k (reach [.cmdDuty 0x3FE0000000000000#64]) with
  | .next t => t
  | .fault _ => State.reset
  | .refused _ => State.reset

/-- `s` with these words still to be offered and these turns. -/
def State.offering (s : State) (cmd : List CmdWord) (turns : List Turn) : State := { s with cmd := cmd, turns := turns }

/-! ## Well-formedness: one ill-formed term for each check -/

/-- R51: `last = 1` marks the end byte. -/
theorem test_wf_refuses_last_symbol_that_is_no_end_byte : (Instr.txEmit true 0x05#8).wf Config.defaults = false := by
  decide +kernel

/-- R53: the checksum of the set-duty frame of 0.5 is 0x3AA5. -/
theorem test_wf_refuses_set_duty_checksum : (Instr.frameSetDuty 0x0000C350#32 0x3AA4#16).wf Config.defaults = false := by
  decide +kernel

/-- R55 (d): no frame with n = 0. -/
theorem test_wf_refuses_empty_frame : (Instr.frameW [] 0x0000#16).wf Config.defaults = false := by decide +kernel

/-- R55 (d): no frame with n > 255; 256 zero bytes have the CRC 0 (R68 (c)). -/
theorem test_wf_refuses_long_frame : (Instr.frameW (List.replicate 256 0x00#8) 0x0000#16).wf Config.defaults = false := by
  decide +kernel

/-- R54: the set-duty payload is the other row's. -/
theorem test_wf_refuses_set_duty_payload_as_general_frame :
    (Instr.frameW [0x05#8, 0x00#8, 0x00#8, 0xC3#8, 0x50#8] 0x3AA5#16).wf Config.defaults = false := by decide +kernel

/-- R53: the checksum of 1E is 0xF3FF. -/
theorem test_wf_refuses_general_checksum : (Instr.frameW [0x1E#8] 0xF3FE#16).wf Config.defaults = false := by decide +kernel

/-- 95_test_vectors.md 2.4, 2.6: terms that are admitted. -/
theorem test_wf_admits : (Instr.frameW [0x1E#8] 0xF3FF#16).wf Config.defaults = true ∧
    (Instr.frameSetDuty 0x0000C350#32 0x3AA5#16).wf Config.defaults = true ∧
    (Instr.txEmit true 0x03#8).wf Config.defaults = true ∧ (Instr.txEmit false 0x05#8).wf Config.defaults = true := by
  decide +kernel

/-! ## Decoding: words written out from the spec's encodings -/

/-- 95_test_vectors.md 2.7, opcode 0x01 over 64 zero bits. -/
theorem test_decode_crcClr : decodeCommand (0b00000001#8 ++ 0#64) = .ok .crcClr := by decide +kernel

/-- 2.7: CRC.UPD 0x31. -/
theorem test_decode_crcUpd : decodeCommand (0b00000010#8 ++ 0#56 ++ 0b00110001#8) = .ok (.crcUpd 0x31#8) := by
  decide +kernel

theorem test_decode_crcRd : decodeCommand (0b00000011#8 ++ 0#64) = .ok .crcRd := by decide +kernel

theorem test_decode_frmBegin : decodeCommand (0b00010000#8 ++ 0#64) = .ok .frmBegin := by decide +kernel

/-- 2.7: FRM.PUSH 0x05. -/
theorem test_decode_frmPush : decodeCommand (0b00010001#8 ++ 0#56 ++ 0b00000101#8) = .ok (.frmPush 0x05#8) := by
  decide +kernel

theorem test_decode_frmSend : decodeCommand (0b00010010#8 ++ 0#64) = .ok .frmSend := by decide +kernel

theorem test_decode_frmAbort : decodeCommand (0b00010011#8 ++ 0#64) = .ok .frmAbort := by decide +kernel

/-- 2.7: CMD.DUTY -1.0, every bit of the operand kept. -/
theorem test_decode_cmdDuty :
    decodeCommand 0x20BFF0000000000000#72 = .ok (.cmdDuty 0xBFF0000000000000#64) ∧
    decodeCommand 0x20FEDCBA9876543210#72 = .ok (.cmdDuty 0xFEDCBA9876543210#64) := by decide +kernel

theorem test_decode_stRd : decodeCommand (0b00110000#8 ++ 0#64) = .ok .stRd := by decide +kernel

/-- R51: bit 8 is `last`, bits 7:0 the byte. -/
theorem test_decode_txEmit : decodeSymbol 0b100000011#9 = .txEmit true 0x03#8 ∧
    decodeSymbol 0b011000101#9 = .txEmit false 0xC5#8 := by decide +kernel

theorem test_decode_reset : decodeEvent 1#1 = .ok .reset ∧ decodeEvent 0#1 = .error .noResetEvent := by decide +kernel

/-- R54 and 2.6: the frame of CMD.DUTY -1.0. -/
theorem test_decode_frameSetDuty :
    decodeFrame Config.defaults [0x02#8, 0x05#8, 0x05#8, 0xFF#8, 0xFE#8, 0x79#8, 0x60#8, 0x4E#8, 0xC0#8, 0x03#8] =
      .ok (.frameSetDuty 0xFFFE7960#32 0x4EC0#16) := by decide +kernel

/-- R52 and 2.4: delimiter values inside the frame. -/
theorem test_decode_frameW :
    decodeFrame Config.defaults [0x02#8, 0x04#8, 0x02#8, 0x03#8, 0x02#8, 0x03#8, 0xE2#8, 0x39#8, 0x03#8] =
      .ok (.frameW [0x02#8, 0x03#8, 0x02#8, 0x03#8] 0xE239#16) := by decide +kernel

/-- R55 (a): reserved opcodes, and a 1 in the lowest and the highest bit that must be 0. -/
theorem test_decode_rejects_commands :
    decodeCommand (0x00#8 ++ 0#64) = .error .unassignedOpcode ∧ decodeCommand (0xFF#8 ++ 0#64) = .error .unassignedOpcode ∧
    decodeCommand 0x30#72 = .error .unassignedOpcode ∧
    decodeCommand (0x01#8 ++ 1#64) = .error .operandBitsNotZero ∧
    decodeCommand 0x110000000000000100#72 = .error .operandBitsNotZero ∧
    decodeCommand 0x028000000000000000#72 = .error .operandBitsNotZero := by decide +kernel

/-- R52: byte strings that are no wire frame. -/
theorem test_decode_rejects_frames :
    decodeFrame Config.defaults [0x02#8] = .error .frameTooShort ∧
    decodeFrame Config.defaults [0x03#8, 0x01#8, 0x1E#8, 0xF3#8, 0xFF#8, 0x03#8] = .error .startByteWrong ∧
    decodeFrame Config.defaults [0x02#8, 0x00#8, 0x00#8, 0x00#8, 0x03#8] = .error .lengthByteWrong ∧
    decodeFrame Config.defaults [0x02#8, 0x02#8, 0x1E#8, 0xF3#8, 0xFF#8, 0x03#8] = .error .lengthByteWrong ∧
    decodeFrame Config.defaults [0x02#8, 0x01#8, 0x1E#8, 0xF3#8, 0xFF#8, 0x02#8] = .error .endByteWrong := by decide +kernel

/-- The host's numbering: one word of each width, and step running it first after reset. -/
theorem test_table_words :
    decodeTableWord 1 1 = some .reset ∧ decodeTableWord 9 0x103 = some (.txEmit true 0x03#8) ∧
    decodeTableWord 16 0x005 = some (.txEmit false 0x05#8) ∧
    decodeTableWord 72 0x203FE0000000000000 = some (.cmdDuty 0x3FE0000000000000#64) ∧
    decodeTableWord 80 0x020505000000002357 = none ∧
    decodeTableWord 80 0x02050500000000235703 = some (.frameSetDuty 0#32 0x2357#16) ∧
    decodeTableWord 48 0x02011EF3FF03 = some (.frameW [0x1E#8] 0xF3FF#16) := by decide +kernel

theorem test_fetch_words :
    nextIs (step (State.reset.withFetchWord 72 0x203FE0000000000000)) (fun t => t.crc == 0x3AA5#16 && t.ph == .send) = true ∧
    nextIs (step (State.reset.withFetchWord 9 0x103)) (fun t => t.tx == [0x103#9]) = true ∧
    nextIs (step (State.reset.withFetchWord 9 0x041)) (fun t => t.tx == [0x041#9]) = true ∧
    nextIs (step (State.reset.withFetchWord 1 1)) (fun t => t == State.reset) = true ∧
    nextIs (step (State.reset.withFetchWord 48 0x02011EF3FF03))
      (fun t => t.tx == [0x002#9] && t.pb == [(0, 0x1E#8)] && t.crc == 0xF3FF#16) = true ∧
    nextIs (step (State.reset.withFetchWord 80 0x02050500000000235703))
      (fun t => t.tx == [0x002#9] && t.pn == 5#8 && t.crc == 0x2357#16) = true := by
  decide +kernel

/-! ## The CRC functions (95_test_vectors.md 2.1) -/

theorem test_crcStep_table :
    crcStep 0x0000#16 0x05#8 = 0x50A5#16 ∧ crcStep 0xFFFF#16 0x00#8 = 0xE1F0#16 ∧ crcStep 0xFFFF#16 0xFF#8 = 0xFF00#16 ∧
    crcStep 0x8000#16 0x80#8 = 0x0000#16 ∧ crcStep 0x0001#16 0x00#8 = 0x0100#16 ∧ crcStep 0x1021#16 0x10#8 = 0x2100#16 ∧
    crcStep 0x1234#16 0x56#8 = 0x3C40#16 := by decide +kernel

/-- The ASCII bytes of "123456789", the check value of R67. -/
theorem test_crc16_check_value :
    crc16 Config.defaults [0x31#8, 0x32#8, 0x33#8, 0x34#8, 0x35#8, 0x36#8, 0x37#8, 0x38#8, 0x39#8] = 0x31C3#16 ∧
    crcSerial [0x31#8, 0x32#8, 0x33#8, 0x34#8, 0x35#8, 0x36#8, 0x37#8, 0x38#8, 0x39#8] = 0x31C3#16 ∧
    crcTableStep 0x50A5#16 0x00#8 = 0xFFF5#16 ∧ crc16 Config.defaults [] = 0x0000#16 := by decide +kernel

/-! ## ScaleFn, the range check and the assembler (95_test_vectors.md 2.5) -/

theorem test_outOfRange :
    outOfRange 0x3FF0000000000000#64 = false ∧ outOfRange 0xBFF0000000000000#64 = false ∧
    outOfRange 0x3FF0000000000001#64 = true ∧ outOfRange 0x8000000000000000#64 = false ∧
    outOfRange 0xC000000000000000#64 = true ∧ outOfRange 0xFFF8000000000000#64 = true ∧
    outOfRange 0x7FF0000000000000#64 = true ∧ outOfRange 0x000FFFFFFFFFFFFF#64 = false := by decide +kernel

/-- 0.3, -0.3, 0.29, -0.000015, 0.00000999, next below 1.0, -1.0, smallest subnormal, -0.987654321. -/
theorem test_scaleFn :
    scaleFn Config.defaults 0x3FD3333333333333#64 = 30000 ∧ scaleFn Config.defaults 0xBFD3333333333333#64 = -30000 ∧
    scaleFn Config.defaults 0x3FD28F5C28F5C28F#64 = 28999 ∧ scaleFn Config.defaults 0xBEEF75104D551D69#64 = -1 ∧
    scaleFn Config.defaults 0x3EE4F357252ADCCD#64 = 0 ∧ scaleFn Config.defaults 0x3FEFFFFFFFFFFFFF#64 = 99999 ∧
    scaleFn Config.defaults 0xBFF0000000000000#64 = -100000 ∧ scaleFn Config.defaults 0x0000000000000001#64 = 0 ∧
    scaleFn Config.defaults 0xBFEF9ADD3C0E56B8#64 = -98765 := by decide +kernel

/-- The exact reading of 0.3, and R109's form in integers. -/
theorem test_scaleFn_readings :
    scaleFn { Config.defaults with scaleFn := .exactProduct } 0x3FD3333333333333#64 = 29999 ∧
    scaleFnInteger 0x3FD3333333333333#64 = 30000 ∧ scaleFnInteger 0x3FD28F5C28F5C28F#64 = 28999 ∧
    scaleFnInteger 0x3EE4F8B588E368F1#64 = 1 ∧ scaleFnInteger 0x8000000000000000#64 = 0 := by decide +kernel

/-- R5: a table as the parameter, listed and unlisted operands; an integer without a 32-bit pattern is refused. -/
theorem test_scaleFn_table :
    scaleFn { Config.defaults with scaleFn := .table [(0x3FE0000000000000#64, 7)] } 0x3FE0000000000000#64 = 7 ∧
    scaleFn { Config.defaults with scaleFn := .table [(0x3FE0000000000000#64, 7)] } 0x3FD3333333333333#64 = 30000 ∧
    { Config.defaults with scaleFn := .table [(0x3FE0000000000000#64, 2 ^ 31)] }.wf = false := by decide +kernel

/-- `val(0.5)` and the payload bytes of -0.5. -/
theorem test_dutyPayload :
    dutyPayload Config.defaults 0xBFE0000000000000#64 = [0x05#8, 0xFF#8, 0xFF#8, 0x3C#8, 0xB0#8] ∧
    f64Val 0x3FE0000000000000#64 = some (1 / 2) ∧ f64Val 0x7FF8000000000000#64 = none := by
  decide +kernel

/-- Decimal literals as patterns: 0.3, -0.29, 0.00001, 0.123456789, 1.5, 0.0 and -0.0. -/
theorem test_assemble_decimals :
    assemble "CMD.DUTY" (.decimal false 3 1) = some (.cmdDuty 0x3FD3333333333333#64) ∧
    assemble "CMD.DUTY" (.decimal true 29 2) = some (.cmdDuty 0xBFD28F5C28F5C28F#64) ∧
    assemble "CMD.DUTY" (.decimal false 1 5) = some (.cmdDuty 0x3EE4F8B588E368F1#64) ∧
    assemble "CMD.DUTY" (.decimal false 123456789 9) = some (.cmdDuty 0x3FBF9ADD3739635F#64) ∧
    assemble "CMD.DUTY" (.decimal false 15 1) = some (.cmdDuty 0x3FF8000000000000#64) ∧
    assemble "CMD.DUTY" (.decimal true 0 1) = some (.cmdDuty 0x8000000000000000#64) ∧
    assemble "CRC.UPD" (.number 0x31) = some (.crcUpd 0x31#8) ∧ assemble "CRC.UPD" (.number 256) = none ∧
    assemble "ST.RD" .none = some .stRd := by decide +kernel

/-- R58: WAIT.IDLE is done when DATA[1:0] = 0. -/
theorem test_waitIdle : waitIdleDone 0x00502#19 = false ∧ waitIdleDone 0x00004#19 = true ∧
    nextIs (execAll (waitIdle 2) sent1) (fun t => t.rsp.length == sent1.rsp.length + 2) = true ∧
    nextIs (execAll cmdStop State.reset) (fun t => t.crc == 0x2357#16) = true := by decide +kernel

/-! ## One step of each instruction -/

/-- R69, example. -/
theorem test_crcClr : nextIs (exec .crcClr idleCrc) (fun t => t.crc == 0x0000#16 && t.rsp == [0x00000#19]) = true := by
  decide +kernel

/-- 95_test_vectors.md 2.2: in BUILD. -/
theorem test_crcClr_in_build : nextIs (exec .crcClr built1)
    (fun t => t.crc == 0xF3FF#16 && t.ef == 0b0100#4 && t.rsp.getLast? == some 0x30000#19) = true := by decide +kernel

/-- R70, example, and 2.2: then 0x00. -/
theorem test_crcUpd : nextIs (exec (.crcUpd 0x05#8) State.reset) (fun t => t.crc == 0x50A5#16) = true ∧
    nextIs (execAll [.crcUpd 0x05#8, .crcUpd 0x00#8] State.reset) (fun t => t.crc == 0xFFF5#16) = true := by decide +kernel

/-- R71, example; and the checksum of the byte 1E in BUILD (R86, example). -/
theorem test_crcRd : nextIs (exec .crcRd idleCrc) (fun t => t.rsp == [0x031C3#19] && t.crc == 0x31C3#16) = true ∧
    nextIs (exec .crcRd built1) (fun t => t.rsp.getLast? == some 0x0F3FF#19) = true := by decide +kernel

/-- R82, example. -/
theorem test_frmBegin : nextIs (exec .frmBegin idleCrc)
    (fun t => t.ph == .build && t.pn == 0#8 && t.crc == 0x0000#16 && t.rsp == [0x00000#19]) = true := by decide +kernel

/-- 2.4: FRM.BEGIN in BUILD keeps the bytes. -/
theorem test_frmBegin_in_build : nextIs (exec .frmBegin built1)
    (fun t => t.ph == .build && t.pb == [(0, 0x1E#8)] && t.ef == 0b0100#4) = true := by decide +kernel

/-- R84, example. -/
theorem test_frmPush : nextIs (exec (.frmPush 0x05#8) built0)
    (fun t => t.pb == [(0, 0x05#8)] && t.pn == 1#8 && t.crc == 0x50A5#16) = true := by decide +kernel

/-- 2.4: FRM.PUSH at `PN = 255`, and in IDLE. -/
theorem test_frmPush_errors :
    nextIs (exec (.frmPush 0xFF#8) built255) (fun t => t.pn == 255#8 && t.ef == 0b0010#4 && t.rsp == [0x20000#19]) = true ∧
    nextIs (exec (.frmPush 0x05#8) State.reset) (fun t => t.pb == [] && t.ef == 0b0100#4) = true := by decide +kernel

/-- R86, example, and 2.4: `PN = 0`. -/
theorem test_frmSend : nextIs (exec .frmSend built1) (fun t => t.ph == .send && t.fi == 0#9 && t.crc == 0xF3FF#16) = true ∧
    nextIs (exec .frmSend built0) (fun t => t.ph == .build && t.ef == 0b0010#4) = true := by decide +kernel

/-- R88, example, and 2.4: in IDLE. -/
theorem test_frmAbort :
    nextIs (exec .frmAbort built1) (fun t => t.ph == .idle && t.pn == 0#8 && t.pb == [] && t.crc == 0x0000#16) = true ∧
    nextIs (exec .frmAbort idleCrc) (fun t => t.crc == 0x0000#16 && t.rsp == [0x00000#19]) = true := by decide +kernel

/-- R106, example. -/
theorem test_cmdDuty : nextIs (exec (.cmdDuty 0x3FE0000000000000#64) idleCrc)
    (fun t => t.ph == .send && t.pn == 5#8 && t.crc == 0x3AA5#16 && t.rsp == [0x00000#19] &&
      t.pb == [(0, 0x05#8), (1, 0x00#8), (2, 0x00#8), (3, 0xC3#8), (4, 0x50#8)]) = true := by decide +kernel

/-- 2.6, last lines: in BUILD, 1.5 is OUT_OF_RANGE and 0.5 is SEQ. -/
theorem test_cmdDuty_in_build :
    nextIs (exec (.cmdDuty 0x3FF8000000000000#64) built1) (fun t => t.ef == 0b0001#4 && t.pb == [(0, 0x1E#8)]) = true ∧
    nextIs (exec (.cmdDuty 0x3FE0000000000000#64) built1) (fun t => t.ef == 0b0100#4 && t.pb == [(0, 0x1E#8)]) = true := by
  decide +kernel

/-- R115, examples: 0x0502 while the frame of CMD.DUTY 0.5 is in flight, 0x0004 after one rejected CMD.DUTY 1.5. -/
theorem test_stRd : nextIs (exec .stRd (sentDuty 3)) (fun t => t.rsp.getLast? == some 0x00502#19) = true ∧
    nextIs (exec .stRd (reach [.cmdDuty 0x3FF8000000000000#64])) (fun t => t.rsp.getLast? == some 0x00004#19) = true := by
  decide +kernel

/-- 2.4: `PN = 5`, `FI = 1` emits 05. -/
theorem test_txEmit : nextIs (exec (.txEmit false 0x05#8) (sentDuty 1)) (fun t => t.fi == 2#9 && t.tx == [0x002#9, 0x005#9]) = true := by
  decide +kernel

/-- R90, example: `PN = 5`, `FI = 9`. -/
theorem test_txEmit_last : nextIs (exec (.txEmit true 0x03#8) (sentDuty 9))
    (fun t => t.ph == .idle && t.pn == 0#8 && t.fi == 0#9 && t.crc == 0x0000#16 && t.pb == [] &&
      t.tx.getLast? == some 0x103#9) = true := by decide +kernel

/-- R140: in flight, with a flag set. -/
theorem test_reset : nextIs (exec .reset { sentDuty 3 with ef := 0b1111#4 })
    (fun t => t.ph == .idle && t.pn == 0#8 && t.pb == [] && t.fi == 0#9 && t.ef == 0b0000#4 && t.crc == 0x0000#16 &&
      t.tx.length == 3) = true := by decide +kernel

/-- R106, example: the ten bytes of CMD.DUTY 0.5, one a step (R37). -/
theorem test_frameSetDuty :
    nextIs (exec (.frameSetDuty 0x0000C350#32 0x3AA5#16) (sentDuty 6))
      (fun t => t.fi == 7#9 && t.tx.getLast? == some 0x050#9 && t.tx.length == 7) = true ∧
    nextIs (execAll (List.replicate 10 (.frameSetDuty 0x0000C350#32 0x3AA5#16)) (sentDuty 0))
      (fun t => t.ph == .idle && t.tx == [0x002#9, 0x005#9, 0x005#9, 0x000#9, 0x000#9, 0x0C3#9, 0x050#9, 0x03A#9, 0x0A5#9,
        0x103#9]) = true := by decide +kernel

/-- R86, example: 02 01 1E F3 FF 03, one a step. -/
theorem test_frameW : nextIs (execAll (List.replicate 6 (.frameW [0x1E#8] 0xF3FF#16)) sent1)
    (fun t => t.ph == .idle && t.tx == [0x002#9, 0x001#9, 0x01E#9, 0x0F3#9, 0x0FF#9, 0x103#9]) = true ∧
    exec (.frameW [0x1F#8] 0xF3FF#16) sent1 = .refused .frameNotInFlight := by
  refine ⟨by decide +kernel, ?_⟩
  rfl

/-! ## The step and its list of turns -/

/-- R126: the held word stays offered while TX.EMIT runs; with opcode 0x30 it is never held, and ill-formed it is ILLEGAL. -/
theorem test_step_holds :
    nextIs (step (sent1.offering [0x010000000000000000#72] [.command, .emit]))
      (fun t => t.cmd == [0x010000000000000000#72] && t.tx == [0x002#9] && t.rsp.length == sent1.rsp.length) = true ∧
    nextIs (step (sent1.offering [0x300000000000000001#72] [.command]))
      (fun t => t.rsp.getLast? == some 0x40000#19 && t.ef == 0b1000#4 && t.ph == .send) = true ∧
    step (sent1.offering [0x010000000000000000#72] [.command]) = .refused .noStepEnabled := by
  refine ⟨by decide +kernel, by decide +kernel, ?_⟩
  rfl

/-! ## Operands that meet the hypotheses of each statement -/

theorem test_meets_DecodeOfEncode :
    (Instr.crcUpd 0xFF#8).wf Config.defaults = true ∧ (Instr.cmdDuty 0xFFFFFFFFFFFFFFFF#64).wf Config.defaults = true ∧
    (Instr.txEmit true 0x03#8).wf Config.defaults = true ∧ (Instr.frameW [0x1E#8] 0xF3FF#16).wf Config.defaults = true ∧
    (Instr.frameW [0x02#8, 0x03#8, 0x02#8, 0x03#8] 0xE239#16).wf Config.defaults = true ∧
    (Instr.frameSetDuty 0xFFFE7960#32 0x4EC0#16).wf Config.defaults = true := by decide +kernel

theorem test_meets_EncodeOfDecode :
    decode Config.defaults (.command 0x0200000000000000FF#72) = .ok (.crcUpd 0xFF#8) ∧
    decode Config.defaults (.frame [0x02#8, 0x01#8, 0x1E#8, 0xF3#8, 0xFF#8, 0x03#8]) = .ok (.frameW [0x1E#8] 0xF3FF#16) := by
  decide +kernel

theorem test_meets_DecodingFollowsTheOpcodeMap :
    (∃ r ∈ opcodeMap, r.selects 0x203FE0000000000000#72 = true) ∧
    (∀ r ∈ opcodeMap, r.selects 0x300000000000000001#72 = false) := by decide +kernel

/-- One state for each clause: a command, a symbol, a step of a frame, and disabled agents. -/
theorem test_meets_StepRunsDecodedInstruction :
    ((built1.offering [0x120000000000000000#72] [.command]).turns = .command :: [] ∧
      (built1.offering [0x120000000000000000#72] [.command]).cmd = 0x120000000000000000#72 :: [] ∧ built1.ph ≠ .send ∧
      decodeCommand 0x120000000000000000#72 = .ok .frmSend) ∧
    (sent1.ph = .send ∧ opcodeField 0x300000000000000000#72 = 0x30#8 ∧ decodeCommand 0x300000000000000000#72 = .ok .stRd) ∧
    (((sentDuty 9).offering [] [.emit]).turns = .emit :: [] ∧ (sentDuty 9).ph = .send ∧ (sentDuty 9).nextSymbol = some 0x103#9 ∧
      decode Config.defaults (.symbol 0x103#9) = .ok (.txEmit true 0x03#8)) ∧
    ((sent1.offering [] [.emit]).turns = .emit :: [] ∧ sent1.frameBytes = some [0x02#8, 0x01#8, 0x1E#8, 0xF3#8, 0xFF#8, 0x03#8] ∧
      decode Config.defaults (.frame [0x02#8, 0x01#8, 0x1E#8, 0xF3#8, 0xFF#8, 0x03#8]) = .ok (.frameW [0x1E#8] 0xF3FF#16)) ∧
    (enabled (sent1.offering [0x010000000000000000#72] []) .command = false ∧
      enabled State.reset .emit = false) := by decide +kernel

theorem test_meets_IllegalWordRaisesIllegal :
    (State.reset.offering [0xFF0000000000000000#72] [.command]).turns = .command :: [] ∧
    (State.reset.offering [0xFF0000000000000000#72] [.command]).cmd = 0xFF0000000000000000#72 :: [] ∧
    State.reset.ph ≠ .send ∧ opcodeField 0x300000000000000001#72 = 0x30#8 ∧
    (∀ r ∈ opcodeMap, r.selects 0x300000000000000001#72 = false) ∧
    (∀ r ∈ opcodeMap, r.selects 0xFF0000000000000000#72 = false) := by decide +kernel

/-- A held word; a step of another agent; the last byte of a frame; RESET in SEND. -/
theorem test_meets_CommandsHeldWhileSending :
    sent1.ph = .send ∧ opcodeField 0x010000000000000000#72 ≠ 0x30#8 ∧ Instr.crcRd.isCommand = true ∧ Instr.crcRd ≠ .stRd ∧
    nextIs (step (sent1.offering [] [.emit])) (fun _ => true) = true ∧ (sent1.offering [] [.emit]).mover = some .emit ∧
    nextIs (step ((sentDuty 9).offering [] [.emit])) (fun t => t.ph != .send) = true ∧ (sentDuty 9).atLastByte = true ∧
    nextIs (step (sent1.offering [] [.reset])) (fun t => t.ph != .send) = true := by decide +kernel

theorem test_meets_StepCompletesFromGoodStates :
    (sent1.offering [] [.command, .emit]).Inv ∧ (sent1.offering [] [.command, .emit]).mover = some .emit ∧
    (State.reset.offering [] [.command, .emit]).Inv ∧ (State.reset.offering [] [.command, .emit]).mover = none := by
  decide +kernel

theorem test_meets_EveryAcceptedCommandIsAnswered :
    (built1.offering [0xFF0000000000000000#72] [.command]).turns = .command :: [] ∧
    (built1.offering [0xFF0000000000000000#72] [.command]).cmd = 0xFF0000000000000000#72 :: [] ∧ built1.ph ≠ .send := by
  decide +kernel

theorem test_meets_ResponsesMatchAcceptedCommands :
    (State.reset.offering [0x300000000000000000#72] [.command]).accepted.length = State.reset.rsp.length ∧
    nextIs (step (State.reset.offering [0x300000000000000000#72] [.command])) (fun _ => true) = true := by decide +kernel

theorem test_meets_HistoryOnlyGrows :
    nextIs (step (sent1.offering [] [.emit])) (fun t => t.tx == [0x002#9]) = true := by decide +kernel

theorem test_meets_StepKeepsRegisterInvariants :
    ((sentDuty 9).offering [] [.emit]).Inv ∧ (sentDuty 0).Inv ∧ built0.Inv ∧
    nextIs (step ((sentDuty 9).offering [] [.emit])) (fun _ => true) = true := by decide +kernel

theorem test_meets_StepKeepsBufferCanonical : built1.pb.wf = true ∧
    Memory.wf [(0, 0x00#8), (254, 0xFF#8)] = true ∧ Memory.wf [(255, 0x00#8)] = false ∧
    nextIs (step (built1.offering [0x110000000000000005#72] [.command])) (fun _ => true) = true := by decide +kernel

/-- With three of ten bytes out, and with none. -/
theorem test_meets_ResetTruncatesFrameInFlight :
    (sentDuty 3).Inv ∧ (sentDuty 3).ph = .send ∧ (sentDuty 3).FramesOut [] ∧ (sentDuty 0).Inv ∧ (sentDuty 0).FramesOut [] := by
  unfold State.FramesOut; decide +kernel

/-- The parameters' defaults meet every hypothesis on them: the statements about the CRC and about ScaleFn. -/
theorem test_meets_parameters :
    Config.defaults.crcInit = 0x0000#16 ∧ Config.defaults.crcXorout = 0x0000#16 ∧ Config.defaults.wf = true ∧
    Config.defaults.scaleFn = .roundedProduct ∧ Config.defaults.dutyScale = 100000 ∧ 5 ≤ Config.defaults.maxPayload.val := by
  decide +kernel

/-- CrcClr, CrcUpd, CrcRd, FrmBegin, FrmPush, FrmSend, FrmAbort, CmdDuty and TxEmit: a state in each phase, and each limit. -/
theorem test_meets_outcomes :
    State.reset.ph = .idle ∧ built1.ph = .build ∧ built1.Inv ∧ sent1.ph = .send ∧
    built0.ph = .build ∧ built0.pn = 0#8 ∧ built1.pn ≠ 0#8 ∧ built255.ph = .build ∧ built255.cfg.maxPayload.val ≤ built255.pn.toNat ∧
    { built255 with pn := 254#8 }.pn.toNat < built255.cfg.maxPayload.val ∧
    outOfRange 0x3FF0000000000001#64 = true ∧ outOfRange 0x3FF0000000000000#64 = false ∧
    (sentDuty 9).ph = .send ∧ (sentDuty 8).ph = .send ∧ (sentDuty 9).frameByte (sentDuty 9).fi.toNat = some 0x03#8 ∧ (sentDuty 9).fi.toNat = (sentDuty 9).pn.toNat + 4 ∧
    (sentDuty 8).frameByte (sentDuty 8).fi.toNat = some 0xA5#8 ∧ (sentDuty 8).fi.toNat ≠ (sentDuty 8).pn.toNat + 4 := by
  decide +kernel

theorem test_meets_OnlyListedInstructionsChangeCrc :
    nextIs (exec (.crcUpd 0x05#8) State.reset) (fun t => t.crc != State.reset.crc) = true ∧
    nextIs (exec (.txEmit true 0x03#8) (sentDuty 9)) (fun t => t.crc != (sentDuty 9).crc) = true := by decide +kernel

/-- FrameLayout: 1 and 255 bytes; FrameView, FrameW, EmitSteps, SinkTakingBytes: `sent1`; a phase other than SEND. -/
theorem test_meets_frames :
    [0x1E#8].length = 1 ∧ (List.replicate 255 0xAA#8).length ≤ 255 ∧ sent1.Inv ∧ sent1.ph = .send ∧ sent1.fi = 0#9 ∧
    (sent1.offering [] (List.replicate (sent1.pn.toNat + 5) .emit ++ [.reset])).turns =
      List.replicate (sent1.pn.toNat + 5) .emit ++ [.reset] ∧
    ([0x1F#8] ≠ sent1.payload) ∧ (0xF3FE#16 ≠ crc16 Config.defaults sent1.payload) ∧ State.reset.ph ≠ .send := by
  decide +kernel

/-- FrameSetDuty, and FrameW at the last byte of a frame: CMD.DUTY 0.5. -/
theorem test_meets_set_duty_frames :
    (sentDuty 9).Inv ∧ (sentDuty 9).ph = .send ∧ (sentDuty 9).fi = 9#9 ∧
    (sentDuty 9).payload = Config.defaults.idSetDuty :: be32 0x0000C350#32 ∧
    (sentDuty 0).payload = Config.defaults.idSetDuty :: be32 0x0000C350#32 ∧ (sentDuty 0).ph = .send ∧ (sentDuty 0).Inv ∧
    (sentDuty 0).fi = 0#9 ∧ (0x0000C351#32 : BitVec 32) ≠ 0x0000C350#32 := by
  decide +kernel

theorem test_meets_RawPayloadIsTransmitted :
    State.reset.Inv ∧ State.reset.ph = .idle ∧ 1 ≤ [0x1E#8].length ∧ (List.replicate 255 0xAA#8).length ≤ State.reset.cfg.maxPayload.val := by
  decide +kernel

/-- An emission in the middle of a frame, its last byte, and RESET with no byte out. -/
theorem test_meets_TxCarriesWholeFramesInOrder :
    ((sentDuty 3).offering [] [.emit]).FramesOut [] ∧ ((sentDuty 3).offering [] [.emit]).Inv ∧
    ((sentDuty 3).offering [] [.emit]).mover = some .emit ∧
    nextIs (step ((sentDuty 3).offering [] [.emit])) (fun _ => true) = true ∧
    nextIs (step ((sentDuty 9).offering [] [.emit])) (fun _ => true) = true ∧
    ((sentDuty 0).offering [] [.reset]).mover = some .reset ∧ (sentDuty 0).ph = .send ∧ (sentDuty 0).fi = 0#9 ∧
    nextIs (step ((sentDuty 0).offering [] [.reset])) (fun _ => true) = true := by
  unfold State.FramesOut; decide +kernel

theorem test_meets_FrozenFrameIsImmutable :
    sent1.ph = .send ∧ nextIs (exec .stRd sent1) (fun t => t.ph == .send) = true ∧
    nextIs (exec (.txEmit false 0x02#8) sent1) (fun t => t.ph == .send) = true := by decide +kernel

/-- One instruction for each transition of R13. -/
theorem test_meets_PhaseTransitions :
    nextIs (exec .frmBegin State.reset) (fun t => t.ph != .idle) = true ∧
    nextIs (exec (.cmdDuty 0x3FE0000000000000#64) State.reset) (fun t => t.ph != .idle) = true ∧
    nextIs (exec .frmSend built1) (fun t => t.ph != .build) = true ∧
    nextIs (exec .frmAbort built1) (fun t => t.ph != .build) = true ∧
    nextIs (exec (.txEmit true 0x03#8) (sentDuty 9)) (fun t => t.ph != .send) = true ∧
    nextIs (exec (.frameSetDuty 0x0000C350#32 0x3AA5#16) (sentDuty 9)) (fun t => t.ph != .send) = true ∧
    nextIs (exec .reset built1) (fun t => t.ph != .build) = true := by decide +kernel

/-- BinaryOperandValue: a pattern in each case of R105, at its bounds. -/
theorem test_meets_BinaryOperandValue :
    f64Class 0x8000000000000000#64 = .zero ∧ f64Class 0x000FFFFFFFFFFFFF#64 = .subnormal ∧
    f64Class 0x0000000000000001#64 = .subnormal ∧ f64Class 0x0010000000000000#64 = .normal ∧
    f64Class 0x7FEFFFFFFFFFFFFF#64 = .normal ∧ f64Class 0x7FF0000000000000#64 = .infinity ∧
    f64Class 0x7FF0000000000001#64 = .nan := by decide +kernel

/-- OutOfRange, ScaleFn (all five) and DutyPayload: an in-range operand with its value, and its negative; one half times 100000
is an integer, and the value 0 is below 1 - 2^-54; a table as the parameter. -/
theorem test_meets_operands :
    Config.defaults.wf = true ∧ Config.defaults.scaleFn = .roundedProduct ∧ Config.defaults.scaleFn.isProduct = true ∧
    Config.defaults.dutyScale = 100000 ∧
    outOfRange 0x3FE0000000000000#64 = false ∧ outOfRange 0xBFE0000000000000#64 = false ∧ outOfRange 0#64 = false ∧
    f64Val 0x3FE0000000000000#64 = some (1 / 2) ∧ f64Val 0xBFE0000000000000#64 = some (-(1 / 2)) ∧ f64Val 0#64 = some 0 ∧
    (1 / 2 : Rat) * Config.defaults.dutyScale = ((50000 : Int) : Rat) ∧
    |(0 : Rat) * Config.defaults.dutyScale| < 1 - (2 : Rat) ^ (-54 : Int) ∧
    { Config.defaults with scaleFn := .table [(0x3FE0000000000000#64, -(2 ^ 31))] }.wf = true := by
  decide +kernel

theorem test_meets_CmdDutyEqualsRawSequence :
    State.reset.Inv ∧ State.reset.ph = .idle ∧ outOfRange 0xBFF0000000000000#64 = false ∧ 5 ≤ State.reset.cfg.maxPayload.val ∧
    State.reset.cfg = Config.defaults := by decide +kernel

/-- ErrorsChangeOnlyFlagAndResponse, ResponseWordForm, FlagsAreSticky, FlagsInfluenceNothing, ErrorPriority: an instruction that
answers OK with data, one for each error, one that is held, and one that emits. -/
theorem test_meets_errors :
    nextIs (exec .crcRd idleCrc) (fun t => t.rsp == idleCrc.rsp ++ [0x031C3#19]) = true ∧
    nextIs (exec (.cmdDuty 0x3FF8000000000000#64) built1) (fun t => t.rsp == built1.rsp ++ [Err.outOfRange.code ++ 0#16]) = true ∧
    nextIs (exec .frmSend built0) (fun t => t.rsp == built0.rsp ++ [Err.len.code ++ 0#16]) = true ∧
    nextIs (exec .frmSend State.reset) (fun t => t.rsp == [Err.seq.code ++ 0#16]) = true ∧
    (built1.offering [0x140000000000000000#72] [.command]).turns = .command :: [] ∧
    (built1.offering [0x140000000000000000#72] [.command]).cmd = 0x140000000000000000#72 :: [] ∧ built1.ph ≠ .send ∧
    decodeCommand 0x140000000000000000#72 = .error .unassignedOpcode ∧
    nextIs (exec (.txEmit false 0x02#8) sent1) (fun t => t.rsp == sent1.rsp) = true := by decide +kernel

theorem test_meets_FlagsInfluenceNothing :
    exec .crcClr sent1 = .refused .held ∧ exec (.txEmit true 0x03#8) { sent1 with pb := [], fi := 2#9 } = .fault .frameByteUndefined := by
  constructor <;> rfl

end Sys2Proof.Machine
end

section
/-! The status word as the concatenation of its fields, from which the layout of R17 is read off. -/

namespace Sys2Proof.Machine

/-- The shifts of R17 and R115 place the fields side by side without overlap, so their XOR is a concatenation, with two zero
bits between `EF` and `PN`. -/
theorem statusWord_eq_append (s : State) : statusWord s = s.pn ++ 0#2 ++ s.ef ++ s.ph.bits := by
  apply BitVec.eq_of_getLsbD_eq
  intro i hi
  simp only [statusWord, BitVec.getLsbD_xor, BitVec.getLsbD_setWidth, BitVec.getLsbD_shiftLeft, BitVec.getLsbD_append]
  -- bit `i` lies in one field, and the bits that the other fields have there are beyond their width or shifted in
  have field : i < 2 ∨ (2 ≤ i ∧ i < 6) ∨ (6 ≤ i ∧ i < 8) ∨ 8 ≤ i := by omega
  obtain hph | ⟨hlo, hef⟩ | ⟨hlo, hzero⟩ | hpn := field <;>
    simp (disch := omega) [hi, if_pos, if_neg, decide_eq_true, decide_eq_false, BitVec.getLsbD_of_ge, Nat.sub_sub]

/-- The four flags stand in `ST` from bit 2 on. -/
theorem statusWord_getLsbD_ef (s : State) {i : Nat} (hi : i < 4) : (statusWord s).getLsbD (i + 2) = s.ef.getLsbD i := by
  rw [statusWord_eq_append, BitVec.getLsbD_append, if_neg (by omega), BitVec.getLsbD_append, if_pos (by omega),
    Nat.add_sub_cancel]

/-- From bit 6 on, above the six bits of `EF` and `PH`, `ST` holds the two zero bits and `PN`. -/
theorem statusWord_extractLsb'_high (s : State) (i n : Nat) :
    (statusWord s).extractLsb' (i + 6) n = (s.pn ++ 0#2).extractLsb' i n := by
  rw [statusWord_eq_append, BitVec.extractLsb'_append_eq_of_le (by omega), BitVec.extractLsb'_append_eq_of_le (by omega)]
  rfl

/-- Settles O58: each field is read off the concatenation `PN ++ 00 ++ EF ++ PH`. -/
theorem statusWordLayout : Obligations.StatusWordLayout := by
  refine ⟨rfl, fun s => ⟨?ph, ?oor, ?len, ?seq, ?ill, ?reserved, ?pn⟩⟩
  case ph => rw [statusWord_eq_append]; exact BitVec.extractLsb'_append_eq_right
  case oor => exact statusWord_getLsbD_ef s (i := 0) (by decide)
  case len => exact statusWord_getLsbD_ef s (i := 1) (by decide)
  case seq => exact statusWord_getLsbD_ef s (i := 2) (by decide)
  case ill => exact statusWord_getLsbD_ef s (i := 3) (by decide)
  case reserved => exact (statusWord_extractLsb'_high s 0 2).trans BitVec.extractLsb'_append_eq_right
  case pn => exact (statusWord_extractLsb'_high s 2 8).trans BitVec.extractLsb'_append_eq_left

end Sys2Proof.Machine
end

section
/-! The CRC commands of R69 to R71 in phase IDLE, and a run of them as one fold of `crc_step` (R72). -/

namespace Sys2Proof.Machine

/-- A run begins with the state that its first instruction answers. -/
theorem execAll_cons_of_next {i : Instr} {s t : State} (h : exec i s = .next t) (is : List Instr) :
    execAll (i :: is) s = execAll is t := by
  simp [execAll, h]

/-- A run that answers a state continues from it. -/
theorem execAll_append_of_next {is : List Instr} {s t : State} (h : execAll is s = .next t) (js : List Instr) :
    execAll (is ++ js) s = execAll js t := by
  induction is generalizing s with
  | nil => cases h; rfl
  | cons i is ih =>
    cases hi : exec i s with
    | next u =>
      rw [execAll_cons_of_next hi] at h
      rw [List.cons_append, execAll_cons_of_next hi, ih h]
    | fault r => simp [execAll, hi] at h
    | refused r => simp [execAll, hi] at h

theorem exec_crcClr_idle {s : State} (h : s.ph = .idle) :
    exec .crcClr s = .next { s with crc := s.cfg.crcInit, rsp := s.rsp ++ [0x00000#19] } :=
  commandStep_run (by simp [h]) (by simp [h]) _

theorem exec_crcUpd_idle {s : State} (h : s.ph = .idle) (b : Byte) :
    exec (.crcUpd b) s = .next { s with crc := crcStep s.crc b, rsp := s.rsp ++ [0x00000#19] } :=
  commandStep_run (by simp [h]) (by simp [h]) _

theorem exec_crcRd_of_ne_send {s : State} (h : s.ph ≠ .send) :
    exec .crcRd s = .next { s with rsp := s.rsp ++ [0#3 ++ (s.crc ^^^ s.cfg.crcXorout)] } :=
  commandStep_run h (by cases hp : s.ph <;> simp_all) _

/-- In phase IDLE, CRC.UPD of each byte of a message folds the message into `CRC`, with one OK response per byte. -/
theorem execAll_map_crcUpd_idle {s : State} (h : s.ph = .idle) (m : List Byte) :
    execAll (m.map .crcUpd) s =
      .next { s with crc := crcFold s.crc m, rsp := s.rsp ++ List.replicate m.length 0x00000#19 } := by
  induction m generalizing s with
  | nil => simp [execAll, crcFold]
  | cons b m ih =>
    -- the state after CRC.UPD is still in IDLE: its `PH` is that of `s`
    rw [List.map_cons, execAll_cons_of_next (exec_crcUpd_idle h b), ih (by exact h)]
    simp [crcFold, List.replicate_succ]

/-- Settles O26: CRC.CLR leaves `CRC_INIT` whatever `CRC` was, so the CRC.UPD steps fold the message from `CRC_INIT`, and
CRC.RD answers that with `CRC_XOROUT` added. -/
theorem crcCommandsComputeCrc : Obligations.CrcCommandsComputeCrc := by
  intro s m h
  rw [crcOf, execAll_cons_of_next (exec_crcClr_idle h), execAll_append_of_next (execAll_map_crcUpd_idle (by exact h) m),
    execAll_cons_of_next (exec_crcRd_of_ne_send (by simp [h]))]
  simp [execAll, crc16, crc16Raw, List.replicate_succ]

end Sys2Proof.Machine
end

section
/-! The bytes of `frame_of` by wire index (R80). -/

namespace Sys2Proof.Machine

@[simp] theorem frameOf_length (cfg : Config) (p : List Byte) : (frameOf cfg p).length = p.length + 5 :=
  wireFrame_length cfg p _

/-- The payload stands in the frame from wire index 2 on. -/
theorem frameOf_getElem?_payload (cfg : Config) {p : List Byte} {i : Nat} (h : i < p.length) :
    (frameOf cfg p)[i + 2]? = p[i]? := by
  have inPayload : i + 2 ≤ p.length + 1 := by omega
  simp [frameOf, wireFrame_getElem?, inPayload]

/-- Settles O32: each byte is read off the wire frame at its index. The bound of 255 is what lets the length byte hold `n`. -/
theorem frameLayout : Obligations.FrameLayout := by
  intro cfg p _ hmax
  refine ⟨frameOf_length cfg p, rfl, ?length, fun i hi => frameOf_getElem?_payload cfg hi, ?crcHi, ?crcLo, ?endByte⟩
  case length =>
    have fits : p.length % 2 ^ 8 = p.length := Nat.mod_eq_of_lt (by omega)
    exact congrArg some ((BitVec.toNat_ofNat _ _).trans fits)
  case crcHi => rw [frameOf, wireFrame_getElem?]; simp [hiByte]
  case crcLo => rw [frameOf, wireFrame_getElem?]; simp [loByte]
  case endByte => rw [frameOf, wireFrame_getElem?]; simp

end Sys2Proof.Machine
end

section
/-! The wire frame frozen in the registers and its transmission by TX.EMIT (R81, R90, R91), and the frame that CMD.DUTY
freezes (R106, R107). -/

namespace Sys2Proof.Machine

/-! ## The frozen frame -/

/-- The checksum that goes out with a frozen frame is that of its payload. -/
theorem State.crcOut_of_frozen {s : State} (hI : s.Inv) (hs : s.ph = .send) : s.crcOut = crc16 s.cfg s.payload := by
  obtain ⟨-, -, -, hfrozen⟩ := hI
  obtain ⟨-, -, hcrc⟩ := hfrozen hs
  rw [State.crcOut, hcrc, crc16]

/-- R81: the register view of a frozen frame is `frame_of` of its payload, at every wire index. -/
theorem State.frameByte_of_frozen {s : State} (hI : s.Inv) (hs : s.ph = .send) (i : Nat) :
    s.frameByte i = (frameOf s.cfg s.payload)[i]? := by
  have hfill : s.BufferFilled := hI.1
  have entry : ∀ a, s.pb.read a = s.payload[a]? := fun a => by
    conv_lhs => rw [hfill.pb_eq, Memory.read_ofBytes, if_pos (Nat.zero_le a), Nat.sub_zero]
  rw [frameOf, wireFrame_getElem?, State.frameByte, State.crcOut_of_frozen hI hs, hfill.length_payload, entry]
  simp

/-- R90: the symbol that TX.EMIT takes from a frozen frame is the one at wire index `FI`. -/
theorem State.nextSymbol_of_frozen {s : State} (hI : s.Inv) (hs : s.ph = .send) :
    s.nextSymbol = (frameSymbols (frameOf s.cfg s.payload))[s.fi.toNat]? := by
  have mark : s.atLastByte = (s.fi.toNat + 1 == s.pn.toNat + 5) := by simp [State.atLastByte]
  rw [State.nextSymbol, State.frameByte_of_frozen hI hs, frameSymbols_getElem?, frameOf_length, hI.1.length_payload, mark]

/-- TX.EMIT before the last byte of a frozen frame leaves the frame frozen. -/
theorem State.inv_of_next_byte {s : State} (hI : s.Inv) (hs : s.ph = .send) (h : s.fi.toNat < s.pn.toNat + 4)
    (tx : List TxSym) : State.Inv { s with fi := s.fi + 1#9, tx := tx } := by
  obtain ⟨hfill, -, -, hfrozen⟩ := hI
  obtain ⟨hpn, -, hcrc⟩ := hfrozen hs
  have hfi : (s.fi + 1#9).toNat ≤ s.pn.toNat + 4 := by
    rw [BitVec.toNat_add]
    exact (Nat.mod_le _ _).trans h
  exact ⟨hfill, fun hp => by simp [hs] at hp, fun hp => by simp [hs] at hp, fun _ => ⟨hpn, hfi, hcrc⟩⟩

/-- R91: from a frozen frame, one TX.EMIT for each byte that is not out yet puts the rest of `frame_of` of the payload on
TX and clears the frame state. -/
theorem emitTimes_of_frozen {k : Nat} {s : State} (hI : s.Inv) (hs : s.ph = .send)
    (hk : s.fi.toNat + k = s.pn.toNat + 5) :
    emitTimes k s = .next { s with
      ph := .idle, fi := 0#9, crc := s.cfg.crcInit, pn := 0#8, pb := [],
      tx := s.tx ++ (frameSymbols (frameOf s.cfg s.payload)).drop s.fi.toNat } := by
  induction k generalizing s with
  | zero =>
    obtain ⟨-, -, -, hfrozen⟩ := hI
    obtain ⟨-, hfi, -⟩ := hfrozen hs
    omega
  | succ k ih =>
    have len : (frameSymbols (frameOf s.cfg s.payload)).length = s.pn.toNat + 5 := by
      rw [frameSymbols_length, frameOf_length, hI.1.length_payload]
    have inside : s.fi.toNat < (frameSymbols (frameOf s.cfg s.payload)).length := by omega
    have symbol := State.nextSymbol_of_frozen hI hs
    rw [List.getElem?_eq_getElem inside] at symbol
    rw [emitTimes_succ (emitNext_send hs symbol), List.drop_eq_getElem_cons inside]
    by_cases hlast : s.fi.toNat = s.pn.toNat + 4
    · -- the last byte: no step is left, and no symbol
      obtain rfl : k = 0 := by omega
      rw [State.advanceFrame_last (by simpa [State.atLastByte] using hlast), List.drop_eq_nil_of_le (by omega)]
      rfl
    · have hfi : (s.fi + 1#9).toNat = s.fi.toNat + 1 := by
        rw [BitVec.toNat_add, Nat.mod_eq_of_lt (by simp; omega)]; rfl
      rw [State.advanceFrame_middle (by simpa [State.atLastByte] using hlast), State.putSymbol,
        ih (State.inv_of_next_byte hI hs (by omega) _) hs (by simp only [hfi]; omega)]
      simp [State.payload, hfi]

/-! ## The frame of CMD.DUTY -/

/-- A payload loaded into the empty buffer is what the buffer holds. -/
theorem State.pb_loadPayload_empty {s : State} (h : s.pb = []) {p : List Byte} (hp : p.length ≤ 255) :
    (s.loadPayload p).pb = Memory.ofBytes 0 p := by
  have written : Memory.writeBytes 0 p [] = Memory.ofBytes 0 p := Memory.writeBytes_ofBytes [] p
  have len : (BitVec.ofNat 8 p.length).toNat = p.length := by simp; omega
  rw [State.loadPayload_pb, h, written, len, Memory.below_ofBytes (by omega)]

/-- In phase IDLE no entry of the buffer holds a value. -/
theorem State.Inv.pb_idle {s : State} (hI : s.Inv) (h : s.ph = .idle) : s.pb = [] := by
  obtain ⟨hfill, hclean, -, -⟩ := hI
  simpa [State.BufferFilled, (hclean h).1] using hfill

/-- The state in which CMD.DUTY of an in-range operand leaves phase IDLE (R106). -/
def State.dutyFrozen (d : BitVec 64) (s : State) : State :=
  State.respondOk (State.loadPayload (dutyPayload s.cfg d)
    { s with crc := crc16Raw s.cfg (dutyPayload s.cfg d), fi := 0#9, ph := .send })

theorem exec_cmdDuty_idle {s : State} {d : BitVec 64} (h : s.ph = .idle) (hd : outOfRange d = false) :
    exec (.cmdDuty d) s = .next (s.dutyFrozen d) := by
  change execCmdDuty d s = _
  rw [execCmdDuty, whenAccepted_run (by simp [h]), hd, if_neg (by simp), whenLegal_mem (by simp [h])]
  rfl

theorem State.dutyFrozen_pb {s : State} (hI : s.Inv) (h : s.ph = .idle) (d : BitVec 64) :
    (s.dutyFrozen d).pb = Memory.ofBytes 0 (dutyPayload s.cfg d) :=
  State.pb_loadPayload_empty (p := dutyPayload s.cfg d) (hI.pb_idle h) (by simp [dutyPayload, be32])

/-- The frame frozen by CMD.DUTY has the payload `duty_payload(d)`. -/
theorem State.dutyFrozen_payload {s : State} (hI : s.Inv) (h : s.ph = .idle) (d : BitVec 64) :
    (s.dutyFrozen d).payload = dutyPayload s.cfg d :=
  State.payload_of_pb rfl (State.dutyFrozen_pb hI h d)

theorem State.dutyFrozen_inv {s : State} (hI : s.Inv) (h : s.ph = .idle) (d : BitVec 64) : (s.dutyFrozen d).Inv := by
  have hcrc : (s.dutyFrozen d).crc = crc16Raw s.cfg (s.dutyFrozen d).payload := by
    rw [State.dutyFrozen_payload hI h]; rfl
  exact ⟨State.bufferFilled_of_bytes rfl (State.dutyFrozen_pb hI h d), fun hp => (by cases hp), fun hp => (by cases hp),
    fun _ => ⟨(by decide : 1 ≤ (5#8).toNat), (by decide : (0#9).toNat ≤ (5#8).toNat + 4), hcrc⟩⟩

/-- Settles O53: CMD.DUTY freezes the frame of `duty_payload(d)`, which depends on `d` and the parameters alone, and ten
TX.EMIT steps put a frozen frame of five payload bytes on TX. -/
theorem dutyTransmitsEncodedFrame : Obligations.DutyTransmitsEncodedFrame := by
  intro cfg d hd
  refine ⟨frameOf cfg (dutyPayload cfg d), by simp [encodeDuty, hd], frameOf_length _ _, ?_⟩
  rintro s hI rfl hidle
  have emitted := emitTimes_of_frozen (k := 10) (State.dutyFrozen_inv hI hidle d) rfl rfl
  rw [State.dutyFrozen_payload hI hidle] at emitted
  exact ⟨_, _, exec_cmdDuty_idle hidle hd, emitted, rfl, rfl, rfl⟩

end Sys2Proof.Machine
end

section
/-! The binary64 operand: its value case by case (R105), and the range check (R101). -/

namespace Sys2Proof.Machine

/-! ## The value of an operand (R105) -/

theorem f64Exp_eq_iff (d : BitVec 64) (e : BitVec 11) : f64Exp d = e ↔ (f64Exp d).toNat = e.toNat := BitVec.toNat_inj.symm

theorem f64Frac_eq_zero_iff (d : BitVec 64) : f64Frac d = 0#52 ↔ (f64Frac d).toNat = 0 := BitVec.toNat_inj.symm

theorem f64Class_zero {d : BitVec 64} (he : (f64Exp d).toNat = 0) (hf : (f64Frac d).toNat = 0) : f64Class d = .zero := by
  simp [f64Class, f64Exp_eq_iff, f64Frac_eq_zero_iff, he, hf]

theorem f64Class_subnormal {d : BitVec 64} (he : (f64Exp d).toNat = 0) (hf : (f64Frac d).toNat ≠ 0) :
    f64Class d = .subnormal := by
  simp [f64Class, f64Exp_eq_iff, f64Frac_eq_zero_iff, he, hf]

theorem f64Class_normal {d : BitVec 64} (h1 : 1 ≤ (f64Exp d).toNat) (h2 : (f64Exp d).toNat ≤ 2046) :
    f64Class d = .normal := by
  have h0 : (f64Exp d).toNat ≠ 0 := by omega
  have h2047 : (f64Exp d).toNat ≠ 2047 := by omega
  simp [f64Class, f64Exp_eq_iff, h0, h2047]

theorem f64Class_infinity {d : BitVec 64} (he : (f64Exp d).toNat = 2047) (hf : (f64Frac d).toNat = 0) :
    f64Class d = .infinity := by
  simp [f64Class, f64Exp_eq_iff, f64Frac_eq_zero_iff, he, hf]

theorem f64Class_nan {d : BitVec 64} (he : (f64Exp d).toNat = 2047) (hf : (f64Frac d).toNat ≠ 0) : f64Class d = .nan := by
  simp [f64Class, f64Exp_eq_iff, f64Frac_eq_zero_iff, he, hf]

theorem f64Dyad_exp_zero {d : BitVec 64} (he : (f64Exp d).toNat = 0) :
    f64Dyad d = { neg := f64Sign d, mant := (f64Frac d).toNat, exp := -1074 } := by
  simp [f64Dyad, f64Exp_eq_iff, he]

theorem f64Dyad_exp_pos {d : BitVec 64} (he : 1 ≤ (f64Exp d).toNat) :
    f64Dyad d = { neg := f64Sign d, mant := 2 ^ 52 + (f64Frac d).toNat, exp := ((f64Exp d).toNat : Int) - 1075 } := by
  have h0 : (f64Exp d).toNat ≠ 0 := by omega
  simp [f64Dyad, f64Exp_eq_iff, h0]

/-- Below the exponent of the infinities and NaNs the value is that of the exact number. -/
theorem f64Val_finite {d : BitVec 64} (he : (f64Exp d).toNat ≤ 2046) : f64Val d = some (f64Dyad d).val := by
  have h2047 : (f64Exp d).toNat ≠ 2047 := by omega
  by_cases h0 : (f64Exp d).toNat = 0
  · by_cases hf : (f64Frac d).toNat = 0
    · rw [f64Val, f64Class_zero h0 hf]
    · rw [f64Val, f64Class_subnormal h0 hf]
  · rw [f64Val, f64Class_normal (by omega) he]

/-- Settles O43: each row of R105 is a class of patterns, and the value of a finite class is that of its `Dyad`. -/
theorem binaryOperandValue : Obligations.BinaryOperandValue := by
  intro d
  refine ⟨fun he hf => ⟨f64Class_zero he hf, ?zero⟩, fun he hf => ⟨f64Class_subnormal he hf, ?subnormal⟩,
    fun h1 h2 => ⟨f64Class_normal h1 h2, ?normal⟩, fun he hf => ⟨f64Class_infinity he hf, ?infinity⟩,
    fun he hf => ⟨f64Class_nan he hf, ?nan⟩⟩
  case zero =>
    have mant : (f64Frac d).toNat = 0 := hf
    rw [f64Val_finite (he.trans_le (by decide)), f64Dyad_exp_zero he, mant]
    simp [Dyad.val]
  case subnormal => rw [f64Val_finite (he.trans_le (by decide)), f64Dyad_exp_zero he]; rfl
  case normal => rw [f64Val_finite h2, f64Dyad_exp_pos h1]; rfl
  case infinity => rw [f64Val, f64Class_infinity he hf]
  case nan => rw [f64Val, f64Class_nan he hf]

/-! ## The range check (R101) -/

/-- Without its sign bit a pattern is its exponent and its fraction, one after the other. -/
theorem magnitude_toNat (d : BitVec 64) :
    (d.extractLsb' 0 63).toNat = (f64Exp d).toNat * 2 ^ 52 + (f64Frac d).toNat := by
  have join : f64Exp d ++ f64Frac d = d.extractLsb' 0 63 := extractLsb'_join (a := 11) (b := 52) d 0
  rw [← join, BitVec.toNat_append, ← Nat.shiftLeft_add_eq_or_of_lt (f64Frac d).isLt, Nat.shiftLeft_eq]

/-- R101: one unsigned comparison of bits 62:0. -/
theorem outOfRange_iff (d : BitVec 64) : outOfRange d = true ↔ 0x3FF0000000000000 < (d.extractLsb' 0 63).toNat := by
  simp [outOfRange, BitVec.ult]

/-- The comparison of R101 on the fields: an exponent above that of 1.0, or the same exponent and a fraction. -/
theorem outOfRange_iff_fields (d : BitVec 64) :
    outOfRange d = true ↔ 1024 ≤ (f64Exp d).toNat ∨ ((f64Exp d).toNat = 1023 ∧ (f64Frac d).toNat ≠ 0) := by
  have hf := (f64Frac d).isLt
  rw [outOfRange_iff, magnitude_toNat]
  omega

theorem Dyad.abs_val (x : Dyad) : |x.val| = (x.mant : Rat) * (2 : Rat) ^ x.exp := by
  have unsigned : |(if x.neg then -1 else 1 : Rat)| = 1 := by cases x.neg <;> simp
  have power : (0 : Rat) < (2 : Rat) ^ x.exp := by positivity
  rw [Dyad.val, abs_mul, abs_mul, unsigned, one_mul, Nat.abs_cast, abs_of_pos power]

/-- With `t` fraction bits, a magnitude exceeds 1 where the integer exceeds `2^t`. -/
theorem Dyad.one_lt_abs_val_iff {x : Dyad} {t : Nat} (h : x.exp = -(t : Int)) : 1 < |x.val| ↔ 2 ^ t < x.mant := by
  have power : (0 : Rat) < 2 ^ t := by positivity
  rw [Dyad.abs_val, h, zpow_neg, zpow_natCast, ← div_eq_mul_inv, one_lt_div power]
  exact_mod_cast Iff.rfl

/-- With no fraction bits, any integer above 1 has a magnitude above 1. -/
theorem Dyad.one_lt_abs_val {x : Dyad} (he : 0 ≤ x.exp) (hm : 1 < x.mant) : 1 < |x.val| := by
  have power : (1 : Rat) ≤ (2 : Rat) ^ x.exp := one_le_zpow₀ (by norm_num) he
  have mant : (1 : Rat) < x.mant := by exact_mod_cast hm
  rw [Dyad.abs_val]
  exact one_lt_mul_of_lt_of_le mant power

/-- A finite operand is out of range exactly where its magnitude is above 1.0. -/
theorem outOfRange_iff_one_lt {d : BitVec 64} (he : (f64Exp d).toNat ≤ 2046) :
    outOfRange d = true ↔ 1 < |(f64Dyad d).val| := by
  have hf := (f64Frac d).isLt
  rw [outOfRange_iff_fields]
  by_cases h0 : (f64Exp d).toNat = 0
  · -- a subnormal is below 2^52 * 2^-1074
    have small (t : Nat) (ht : 52 ≤ t) : (f64Frac d).toNat < 2 ^ t :=
      hf.trans_le (Nat.pow_le_pow_right (by decide) ht)
    rw [Dyad.one_lt_abs_val_iff (t := 1074) (by rw [f64Dyad_exp_zero h0]; rfl), f64Dyad_exp_zero h0]
    exact iff_of_false (by omega) (Nat.not_lt_of_gt (small 1074 (by decide)))
  · have mant : (f64Dyad d).mant = 2 ^ 52 + (f64Frac d).toNat := by rw [f64Dyad_exp_pos (by omega)]
    have exp : (f64Dyad d).exp = ((f64Exp d).toNat : Int) - 1075 := by rw [f64Dyad_exp_pos (by omega)]
    by_cases hbig : 1075 ≤ (f64Exp d).toNat
    · exact iff_of_true (.inl (by omega)) (Dyad.one_lt_abs_val (by omega) (by omega))
    · obtain ⟨t, ht⟩ : ∃ t, (f64Exp d).toNat + t = 1075 := ⟨1075 - (f64Exp d).toNat, by omega⟩
      rw [Dyad.one_lt_abs_val_iff (t := t) (by omega), mant]
      -- the integer lies in 2^52 .. 2^53 - 1: compare the number of fraction bits with 52
      obtain hlt | rfl | hgt := Nat.lt_trichotomy t 52
      · have : 2 ^ t < 2 ^ 52 := Nat.pow_lt_pow_right (by decide) hlt
        omega
      · omega
      · have : 2 ^ 53 ≤ 2 ^ t := Nat.pow_le_pow_right (by decide) hgt
        omega

/-- Settles O44: at the exponent 2047 there is no value and the comparison holds; below it the comparison is that
of the magnitude with 1. -/
theorem outOfRangeExactlyAboveOne : Obligations.OutOfRangeExactlyAboveOne := by
  intro d
  refine ⟨outOfRange_iff d, ?_⟩
  by_cases he : (f64Exp d).toNat ≤ 2046
  · have finite : f64Class d ≠ .nan ∧ f64Class d ≠ .infinity := by
      have value := f64Val_finite he
      constructor <;> intro hc <;> simp [f64Val, hc] at value
    simp [outOfRange_iff_one_lt he, f64Val_finite he, finite]
  · have he' : (f64Exp d).toNat = 2047 := by have := (f64Exp d).isLt; omega
    refine iff_of_true ((outOfRange_iff_fields d).mpr (.inl (by omega))) ?_
    by_cases hf : (f64Frac d).toNat = 0
    · exact .inr (.inl (f64Class_infinity he' hf))
    · exact .inl (f64Class_nan he' hf)

end Sys2Proof.Machine
end

section
/-! R102 and R109 agree: rounding the product to binary64 and truncating it, against the definition in integers. With
`a = M / 2^t` for the exact product, both answer `k = ceil(a)` or `k - 1`, by how far `a` is below `k`. -/

namespace Sys2Proof.Machine

/-! ## Rounding and truncating with a power of two as the divisor -/

@[simp] theorem roundHalfEven_zero (n : Nat) : roundHalfEven n 0 = n := by
  simp [roundHalfEven, Nat.mod_one]

/-- An even integer is reached from half a unit below it on, a tie included. -/
theorem le_roundHalfEven_iff {N : Nat} (hN : N % 2 = 0) (n r : Nat) :
    N ≤ roundHalfEven n r ↔ 2 * (N * 2 ^ r) ≤ 2 * n + 2 ^ r := by
  have power : 0 < 2 ^ r := by positivity
  have split := Nat.div_add_mod n (2 ^ r)
  have rem := Nat.mod_lt n power
  rw [roundHalfEven, Nat.shiftRight_eq_div_pow]
  generalize n / 2 ^ r = q at *
  generalize n % 2 ^ r = m at *
  generalize 2 ^ r = P at *
  subst split
  obtain hlt | rfl | hgt := Nat.lt_trichotomy (q + 1) N
  · have gap : P * q + 2 * P ≤ N * P := by linarith [Nat.mul_le_mul_right P hlt]
    exact iff_of_false (by split_ifs <;> omega) (by omega)
  · -- `N` is the integer above `n / 2^r`, which is even, so `q` is odd and a tie goes up
    have next : (q + 1) * P = P * q + P := by ring
    rw [next]
    split_ifs <;> omega
  · have gap : N * P ≤ P * q := by linarith [Nat.mul_le_mul_right P (Nat.le_of_lt_succ hgt)]
    exact iff_of_true (by split_ifs <;> omega) (by omega)

/-- Rounding to a multiple of `2^r` and then truncating to a multiple of `2^t` reaches `k` from `2^(r-1)` below it on. -/
theorem le_roundHalfEven_shiftRight_iff {r t : Nat} (h : r < t) (k n : Nat) :
    k ≤ roundHalfEven n r >>> (t - r) ↔ 2 * (k * 2 ^ t) ≤ 2 * n + 2 ^ r := by
  have even : k * 2 ^ (t - r) % 2 = 0 := by
    rw [← Nat.dvd_iff_mod_eq_zero]
    exact (dvd_pow_self 2 (by omega)).mul_left k
  have power : k * 2 ^ (t - r) * 2 ^ r = k * 2 ^ t := by rw [mul_assoc, ← pow_add, Nat.sub_add_cancel h.le]
  rw [Nat.shiftRight_eq_div_pow, Nat.le_div_iff_mul_le (by positivity), le_roundHalfEven_iff even, power]

/-- So the result is the ceiling `k` or one below it. -/
theorem roundHalfEven_shiftRight_eq {r t : Nat} (h : r < t) {k n : Nat} (hlo : k * 2 ^ t < n + 2 ^ t)
    (hhi : n ≤ k * 2 ^ t) :
    roundHalfEven n r >>> (t - r) = if 2 * (k * 2 ^ t) ≤ 2 * n + 2 ^ r then k else k - 1 := by
  have unit : 0 < 2 ^ r := by positivity
  have power : 2 ^ r < 2 ^ t := Nat.pow_lt_pow_right (by decide) h
  have reached := le_roundHalfEven_shiftRight_iff h k n
  have above : ¬ k + 1 ≤ roundHalfEven n r >>> (t - r) := by
    rw [le_roundHalfEven_shiftRight_iff h, Nat.add_mul]
    omega
  have below : k - 1 ≤ roundHalfEven n r >>> (t - r) := by
    rw [le_roundHalfEven_shiftRight_iff h, Nat.sub_mul, one_mul]
    omega
  split_ifs with hk
  · have := reached.mpr hk
    omega
  · have := mt reached.mp hk
    omega

/-! ## The product in binary64 (R102) -/

theorem Dyad.trunc_of_fractionBits {x : Dyad} {t : Nat} (h : x.exp = -(t : Int)) :
    x.trunc = (if x.neg then -1 else 1) * ((x.mant >>> t : Nat) : Int) := by
  have magnitude : (if 0 ≤ x.exp then x.mant <<< x.exp.toNat else x.mant >>> (-x.exp).toNat) = x.mant >>> t := by
    rw [h, neg_neg, Int.toNat_natCast]
    split_ifs with h0
    · obtain rfl : t = 0 := by omega
      rfl
    · rfl
  rw [Dyad.trunc, magnitude]
  cases x.neg <;> simp

/-- The integer part of `M / 2^t` after rounding it to 53 significant bits. -/
def roundedQuotient (M t : Nat) : Nat := roundHalfEven M (M.log2 - 52) >>> (t - (M.log2 - 52))

/-- With at most 1074 fraction bits `RNE64` rounds to 53 significant bits, so that truncation leaves the rounded quotient. -/
theorem trunc_rne64 {neg : Bool} {M t : Nat} (ht : t ≤ 1074) (hlog : M.log2 - 52 ≤ t) :
    (rne64 { neg := neg, mant := M, exp := -(t : Int) }).trunc =
      (if neg then -1 else 1) * (roundedQuotient M t : Int) := by
  by_cases hsmall : M.log2 ≤ 52
  · -- no more than 53 bits: nothing to round
    have fits : ulpExp { neg := neg, mant := M, exp := -(t : Int) } ≤ -(t : Int) := by simp only [ulpExp]; omega
    rw [rne64, if_pos fits, Dyad.trunc_of_fractionBits rfl, roundedQuotient, Nat.sub_eq_zero_of_le hsmall,
      roundHalfEven_zero, Nat.sub_zero]
  · have ulp : ulpExp { neg := neg, mant := M, exp := -(t : Int) } = -((t - (M.log2 - 52) : Nat) : Int) := by
      simp only [ulpExp]; omega
    have dropped : (-((t - (M.log2 - 52) : Nat) : Int) - -(t : Int)).toNat = M.log2 - 52 := by omega
    rw [rne64, ulp, if_neg (by simp only; omega), dropped, Dyad.trunc_of_fractionBits rfl, roundedQuotient]

/-- Of `k` and `k - 1`, the integers around a product of at most 100000, the rounded quotient is `k` from half a unit of the
53rd bit below `k` on. -/
theorem roundedQuotient_eq {k t M : Nat} (hr : M.log2 - 52 < t) (hlo : k * 2 ^ t < M + 2 ^ t) (hhi : M ≤ k * 2 ^ t) :
    roundedQuotient M t = if 2 * (k * 2 ^ t) ≤ 2 * M + 2 ^ (M.log2 - 52) then k else k - 1 :=
  roundHalfEven_shiftRight_eq hr hlo hhi

/-! ## The threshold of R109 -/

/-- The number `g` with `h = 2^-g`, where `h` is half the spacing of the binary64 values just below `k` (R109). -/
def halfSpacingBits (k : Nat) : Nat := if k = 1 then 54 else 53 - (k - 1).log2

/-- Above 1, the product and the integers `k - 1` and `k` around it have the same leading bit: `2^E < k <= 2^(E+1)`. -/
theorem log2_between {k t M : Nat} (hk : 2 ≤ k) (hlo : k * 2 ^ t < M + 2 ^ t) (hhi : M < k * 2 ^ t) :
    M.log2 = (k - 1).log2 + t := by
  have hE1 : 2 ^ (k - 1).log2 ≤ k - 1 := Nat.log2_self_le (by omega)
  have hE2 : k - 1 < 2 ^ ((k - 1).log2 + 1) := Nat.lt_log2_self
  have lo : 2 ^ (k - 1).log2 * 2 ^ t ≤ (k - 1) * 2 ^ t := Nat.mul_le_mul_right _ hE1
  have hi : k * 2 ^ t ≤ 2 ^ ((k - 1).log2 + 1) * 2 ^ t := Nat.mul_le_mul_right _ (by omega)
  rw [Nat.sub_mul] at lo
  rw [← pow_add] at lo hi
  have hM : M ≠ 0 := by
    have : 0 < 2 ^ ((k - 1).log2 + t) := by positivity
    omega
  exact (Nat.log2_eq_iff hM).mpr ⟨by omega, by rw [Nat.add_right_comm]; omega⟩

/-- The distance `D` of the product below `k`, in units of `2^-t`, is at most `h` exactly where rounding to 53 bits makes up
for it, for `k` above 1. -/
theorem halfSpacing_iff_of_two_le {k t M D : Nat} (hk : 2 ≤ k) (hk' : k ≤ 100000) (ht : 52 ≤ t) (hD : M + D = k * 2 ^ t)
    (hD0 : 0 < D) (hD1 : D < 2 ^ t) : D * 2 ^ halfSpacingBits k ≤ 2 ^ t ↔ 2 * D ≤ 2 ^ (M.log2 - 52) := by
  have hlog : M.log2 = (k - 1).log2 + t := log2_between hk (by omega) (by omega)
  have hE : (k - 1).log2 < 17 := (Nat.log2_lt (by omega)).mpr (by omega)
  have bits : halfSpacingBits k = 1 + (52 - (k - 1).log2) := by rw [halfSpacingBits, if_neg (by omega)]; omega
  have units : t = (M.log2 - 52) + (52 - (k - 1).log2) := by omega
  have scale : 0 < 2 ^ (52 - (k - 1).log2) := by positivity
  calc D * 2 ^ halfSpacingBits k ≤ 2 ^ t
      ↔ 2 * D * 2 ^ (52 - (k - 1).log2) ≤ 2 ^ (M.log2 - 52) * 2 ^ (52 - (k - 1).log2) := by
        rw [bits, ← pow_add, ← units, pow_add, pow_one, ← mul_assoc, mul_comm D 2]
    _ ↔ 2 * D ≤ 2 ^ (M.log2 - 52) := Nat.mul_le_mul_right_iff scale

/-- The same for a product between 0 and 1. -/
theorem halfSpacing_iff_of_one {t M D : Nat} (ht : 52 ≤ t) (hD : M + D = 2 ^ t) (hD0 : 0 < D) (hM : 0 < M) :
    D * 2 ^ 54 ≤ 2 ^ t ↔ 2 * D ≤ 2 ^ (M.log2 - 52) := by
  have hlo : 2 ^ M.log2 ≤ M := Nat.log2_self_le (by omega)
  have hhi : M < 2 ^ (M.log2 + 1) := Nat.lt_log2_self
  have hlog : M.log2 < t := (Nat.log2_lt (by omega)).mpr (by omega)
  by_cases htop : M.log2 + 1 = t
  · by_cases h53 : 53 ≤ t
    · have units : t = (M.log2 - 52) + 53 := by omega
      have scaled : 2 ^ t = 2 ^ (M.log2 - 52) * 2 ^ 53 := by rw [← pow_add, ← units]
      omega
    · -- 52 bits and fewer are not rounded
      obtain rfl : t = 52 := by omega
      have unrounded : M.log2 - 52 = 0 := by omega
      rw [unrounded]
      omega
  · -- a product below 1/2 is further from 1 than either bound
    have half : 2 ^ (M.log2 + 1) ≤ 2 ^ (t - 1) := Nat.pow_le_pow_right (by decide) (by omega)
    have double : 2 ^ t = 2 * 2 ^ (t - 1) := by rw [← pow_succ', Nat.sub_add_cancel (by omega)]
    have less : 2 ^ (M.log2 - 52) ≤ 2 ^ M.log2 := Nat.pow_le_pow_right (by decide) (Nat.sub_le _ _)
    exact iff_of_false (by omega) (by omega)

/-- R109's comparison `a >= k - h`, multiplied by `2^(t+g)`, is the one that rounding makes. -/
theorem threshold_iff {k t M : Nat} (hk : k ≤ 100000) (ht : 52 ≤ t) (hM : 0 < M) (hlo : k * 2 ^ t < M + 2 ^ t)
    (hhi : M < k * 2 ^ t) :
    k <<< (t + halfSpacingBits k) ≤ (M <<< halfSpacingBits k) + (1 <<< t) ↔ 2 * (k * 2 ^ t) ≤ 2 * M + 2 ^ (M.log2 - 52) := by
  obtain ⟨D, hD⟩ : ∃ D, k * 2 ^ t = M + D := ⟨k * 2 ^ t - M, by omega⟩
  have distance : k <<< (t + halfSpacingBits k) ≤ (M <<< halfSpacingBits k) + (1 <<< t) ↔
      D * 2 ^ halfSpacingBits k ≤ 2 ^ t := by
    rw [Nat.shiftLeft_eq, Nat.shiftLeft_eq, Nat.shiftLeft_eq, pow_add, ← mul_assoc, hD, Nat.add_mul, one_mul,
      Nat.add_le_add_iff_left]
  have bound : D * 2 ^ halfSpacingBits k ≤ 2 ^ t ↔ 2 * D ≤ 2 ^ (M.log2 - 52) := by
    by_cases h1 : k = 1
    · subst h1
      exact halfSpacing_iff_of_one ht (by omega) (by omega) hM
    · have h0 : k ≠ 0 := by rintro rfl; omega
      exact halfSpacing_iff_of_two_le (by omega) hk ht hD.symm (by omega) (by omega)
  rw [distance, bound]
  omega

/-! ## The two definitions of ScaleFn -/

/-- The ceiling of `M / 2^t` as R109's integer form computes it. -/
theorem ceil_shiftRight_bounds (M t : Nat) :
    ((M + (1 <<< t) - 1) >>> t) * 2 ^ t < M + 2 ^ t ∧ M ≤ ((M + (1 <<< t) - 1) >>> t) * 2 ^ t := by
  have power : 0 < 2 ^ t := by positivity
  rw [Nat.shiftLeft_eq, one_mul, Nat.shiftRight_eq_div_pow]
  have split := Nat.div_add_mod (M + 2 ^ t - 1) (2 ^ t)
  have rem := Nat.mod_lt (M + 2 ^ t - 1) power
  rw [mul_comm] at split
  omega

/-- A product of at most 100000 has no more than 17 bits before the binary point. -/
theorem log2_sub_lt {M t : Nat} (ht : 52 ≤ t) (hM : M ≤ 100000 * 2 ^ t) : M.log2 - 52 < t := by
  have power : 0 < 2 ^ t := by positivity
  have bits : M < 2 ^ (17 + t) := by rw [pow_add]; omega
  by_cases h0 : M = 0
  · rw [h0, Nat.log2_zero]; omega
  · have := (Nat.log2_lt h0).mpr bits
    omega

/-- R109's integer form answers the rounded quotient, with the sign of the product. -/
theorem scaleFnInteger_eq {d : BitVec 64} {neg : Bool} {M t : Nat}
    (hq : scaledProduct 100000 d = { neg := neg, mant := M, exp := -(t : Int) }) (ht : 52 ≤ t) (hM : M ≤ 100000 * 2 ^ t) :
    scaleFnInteger d = (if neg then -1 else 1) * (roundedQuotient M t : Int) := by
  obtain ⟨hlo, hhi⟩ := ceil_shiftRight_bounds M t
  have hk : (M + (1 <<< t) - 1) >>> t ≤ 100000 := by
    have : ((M + (1 <<< t) - 1) >>> t) * 2 ^ t < (100000 + 1) * 2 ^ t := by omega
    exact Nat.le_of_lt_succ (Nat.lt_of_mul_lt_mul_right this)
  rw [roundedQuotient_eq (log2_sub_lt ht hM) hlo hhi]
  simp only [scaleFnInteger, hq, neg_neg, Int.toNat_natCast, Int.toNat_neg_natCast, Nat.shiftLeft_zero]
  generalize (M + (1 <<< t) - 1) >>> t = k at *
  by_cases h0 : M = 0
  · -- the ceiling of 0 is 0
    have zero : k = 0 := by simpa [h0] using hlo
    simp [h0, zero]
  · have pos : 1 ≤ k := Nat.one_le_iff_ne_zero.mpr (by rintro rfl; omega)
    by_cases hexact : M = k <<< t
    · rw [if_neg h0, if_pos hexact]
      rw [Nat.shiftLeft_eq] at hexact
      have reached : 2 * (k * 2 ^ t) ≤ 2 * M + 2 ^ (M.log2 - 52) := by rw [hexact]; exact Nat.le_add_right _ _
      rw [if_pos reached]
    · rw [if_neg h0, if_neg hexact]
      rw [Nat.shiftLeft_eq] at hexact
      have threshold := threshold_iff hk ht (by omega) hlo (by omega)
      rw [halfSpacingBits] at threshold
      by_cases reached : 2 * (k * 2 ^ t) ≤ 2 * M + 2 ^ (M.log2 - 52)
      · rw [if_pos (threshold.mpr reached), if_pos reached]
      · rw [if_neg (mt threshold.mp reached), if_neg reached, Nat.cast_sub pos, Nat.cast_one]

/-- An in-range operand has between 52 and 1074 fraction bits, and magnitude at most 1. -/
theorem f64Dyad_of_inRange {d : BitVec 64} (hd : outOfRange d = false) :
    ∃ m t : Nat, f64Dyad d = { neg := f64Sign d, mant := m, exp := -(t : Int) } ∧ 52 ≤ t ∧ t ≤ 1074 ∧ m ≤ 2 ^ t := by
  have he : (f64Exp d).toNat ≤ 1023 := by
    have := mt (outOfRange_iff_fields d).mpr (by simp [hd])
    omega
  have bits : ∃ m t : Nat, f64Dyad d = { neg := f64Sign d, mant := m, exp := -(t : Int) } ∧ 52 ≤ t ∧ t ≤ 1074 := by
    by_cases h0 : (f64Exp d).toNat = 0
    · exact ⟨_, 1074, f64Dyad_exp_zero h0, by decide, by decide⟩
    · refine ⟨2 ^ 52 + (f64Frac d).toNat, 1075 - (f64Exp d).toNat, ?_, by omega, by omega⟩
      rw [f64Dyad_exp_pos (by omega), Dyad.mk.injEq]
      exact ⟨rfl, rfl, by omega⟩
  obtain ⟨m, t, hx, ht, ht'⟩ := bits
  refine ⟨m, t, hx, ht, ht', ?_⟩
  have inRange := mt (outOfRange_iff_one_lt (d := d) (by omega)).mpr (by simp [hd])
  rw [hx, Dyad.one_lt_abs_val_iff rfl] at inRange
  exact Nat.le_of_not_lt inRange

/-- Settles O46: both definitions answer the rounded quotient of the exact product `M / 2^t`, with its sign. -/
theorem scaleFnIntegerForm : Obligations.ScaleFnIntegerForm := by
  intro cfg d hread hscale hd
  obtain ⟨m, t, hx, ht, ht', hm⟩ := f64Dyad_of_inRange hd
  have product : scaledProduct 100000 d = { neg := f64Sign d, mant := m * 100000, exp := -(t : Int) } := by
    rw [scaledProduct, hx]
  have bound : m * 100000 ≤ 100000 * 2 ^ t := by omega
  rw [scaleFnInteger_eq product ht bound, scaleFn, hread, hscale, product]
  exact trunc_rne64 ht' (log2_sub_lt ht bound).le

end Sys2Proof.Machine
end

section
/-! RESET (R140): the state it answers, and that no command word is held outside phase SEND. -/

namespace Sys2Proof.Machine

/-- Step 1 of R48: only phase SEND holds a command word. -/
theorem accepts_of_ne_send {s : State} (h : s.ph ≠ .send) (w : CmdWord) : accepts s w = true := by
  simp [accepts, h]

/-- `ST` reads 0 where `PN`, `EF` and `PH` are at their reset values (R17, R20). -/
theorem statusWord_eq_zero {s : State} (hpn : s.pn = 0#8) (hef : s.ef = 0#4) (hph : s.ph = .idle) :
    statusWord s = 0x0000#16 := by
  rw [statusWord_eq_append, hpn, hef, hph]
  rfl

/-- Settles O13: the state answered is that of `State.resetRegisters`, in phase IDLE and with an empty buffer. -/
theorem resetEventOutcome : Obligations.ResetEventOutcome := by
  intro s
  refine ⟨rfl, s.resetRegisters, rfl, rfl, ?undefined, ?status, ?accepted⟩
  case undefined =>
    intro a
    rw [State.resetRegisters_pb, Memory.read_nil]
  case status => exact statusWord_eq_zero s.resetRegisters_pn s.resetRegisters_ef s.resetRegisters_ph
  case accepted => exact accepts_of_ne_send (by simp)

end Sys2Proof.Machine
end

section
/-! Everything an instruction can do when it answers a next state, said once: the statements about all instructions are
case splits over `Executes`. -/

namespace Sys2Proof.Machine

/-- The ways an instruction `i` answers a next state from `s`: it raises an error, runs the rule of its row, or emits. -/
inductive Executes (s : State) : Instr → State → Prop
  | raised {i : Instr} (e : Err) (command : i.isCommand = true) (accepted : s.ph ≠ .send) (len : e = .len → s.ph = .build) :
      Executes s i (s.raise e)
  | crcClr (idle : s.ph = .idle) : Executes s .crcClr (State.respondOk { s with crc := s.cfg.crcInit })
  | crcUpd (b : Byte) (idle : s.ph = .idle) : Executes s (.crcUpd b) (State.respondOk { s with crc := crcStep s.crc b })
  | crcRd (accepted : s.ph ≠ .send) : Executes s .crcRd (s.respond okCode s.crcOut)
  | frmBegin (idle : s.ph = .idle) :
      Executes s .frmBegin (State.respondOk (State.setPn 0#8 { s with ph := .build, crc := s.cfg.crcInit }))
  | frmPush (b : Byte) (build : s.ph = .build) (room : s.pn.toNat < s.cfg.maxPayload.val) :
      Executes s (.frmPush b) (State.respondOk (State.appendByte b { s with crc := crcStep s.crc b }))
  | frmSend (build : s.ph = .build) (filled : s.pn ≠ 0#8) :
      Executes s .frmSend (State.respondOk { s with ph := .send, fi := 0#9 })
  | frmAbort (accepted : s.ph ≠ .send) :
      Executes s .frmAbort (State.respondOk (State.setPn 0#8 { s with ph := .idle, crc := s.cfg.crcInit }))
  | cmdDuty (d : BitVec 64) (idle : s.ph = .idle) (inRange : outOfRange d = false) :
      Executes s (.cmdDuty d) (s.dutyFrozen d)
  | stRd : Executes s .stRd (s.respond okCode (statusWord s))
  | emitted {i : Instr} (y : TxSym) (send : s.ph = .send) (next : s.nextSymbol = some y)
      (named : (∃ b, i = .txEmit s.atLastByte b) ∨ (∃ d c, i = .frameSetDuty d c) ∨ (∃ p c, i = .frameW p c)) :
      Executes s i (State.putSymbol y s.advanceFrame)
  | reset : Executes s .reset s.resetRegisters

/-! ## Running a command -/

/-- Outside SEND, a phase that is not among the legal ones raises SEQ. -/
theorem Executes.seq {i : Instr} {s : State} (hc : i.isCommand = true) (hs : s.ph ≠ .send) :
    Executes s i (s.raise .seq) := .raised .seq hc hs (by simp)

theorem executes_of_execCrcClr {s t : State} (h : execCrcClr s = .next t) : Executes s .crcClr t := by
  obtain ⟨hs, ⟨hm, rfl⟩ | ⟨-, rfl⟩⟩ := commandStep_next h
  · exact .crcClr (by simpa using hm)
  · exact .seq rfl hs

theorem executes_of_execCrcUpd {b : Byte} {s t : State} (h : execCrcUpd b s = .next t) : Executes s (.crcUpd b) t := by
  obtain ⟨hs, ⟨hm, rfl⟩ | ⟨-, rfl⟩⟩ := commandStep_next h
  · exact .crcUpd b (by simpa using hm)
  · exact .seq rfl hs

theorem executes_of_execCrcRd {s t : State} (h : execCrcRd s = .next t) : Executes s .crcRd t := by
  obtain ⟨hs, ⟨-, rfl⟩ | ⟨-, rfl⟩⟩ := commandStep_next h
  · exact .crcRd hs
  · exact .seq rfl hs

theorem executes_of_execFrmBegin {s t : State} (h : execFrmBegin s = .next t) : Executes s .frmBegin t := by
  obtain ⟨hs, ⟨hm, rfl⟩ | ⟨-, rfl⟩⟩ := commandStep_next h
  · exact .frmBegin (by simpa using hm)
  · exact .seq rfl hs

theorem executes_of_execFrmPush {b : Byte} {s t : State} (h : execFrmPush b s = .next t) : Executes s (.frmPush b) t := by
  obtain ⟨hs, ⟨hm, rfl⟩ | ⟨-, rfl⟩⟩ := commandStep_next h
  · split
    · exact .raised .len rfl hs (fun _ => by simpa using hm)
    · next room => exact .frmPush b (by simpa using hm) (Nat.lt_of_not_le room)
  · exact .seq rfl hs

theorem executes_of_execFrmSend {s t : State} (h : execFrmSend s = .next t) : Executes s .frmSend t := by
  obtain ⟨hs, ⟨hm, rfl⟩ | ⟨-, rfl⟩⟩ := commandStep_next h
  · split
    · exact .raised .len rfl hs (fun _ => by simpa using hm)
    · next filled => exact .frmSend (by simpa using hm) filled
  · exact .seq rfl hs

theorem executes_of_execFrmAbort {s t : State} (h : execFrmAbort s = .next t) : Executes s .frmAbort t := by
  obtain ⟨hs, ⟨-, rfl⟩ | ⟨-, rfl⟩⟩ := commandStep_next h
  · exact .frmAbort hs
  · exact .seq rfl hs

theorem executes_of_execCmdDuty {d : BitVec 64} {s t : State} (h : execCmdDuty d s = .next t) :
    Executes s (.cmdDuty d) t := by
  by_cases hs : s.ph = .send
  · rw [execCmdDuty, whenAccepted_send hs] at h; cases h
  · rw [execCmdDuty, whenAccepted_run hs] at h
    split at h
    · cases h; exact .raised .outOfRange rfl hs (by simp)
    · next inRange =>
      obtain ⟨hm, rfl⟩ | ⟨-, rfl⟩ := whenLegal_next h
      · exact .cmdDuty d (by simpa using hm) (by simpa using inRange)
      · exact .seq rfl hs

/-- ST.RD is legal in every phase. -/
theorem execStRd_eq (s : State) : execStRd s = .next (s.respond okCode (statusWord s)) :=
  whenLegal_mem (by cases s.ph <;> simp) _

/-! ## Running TX.EMIT -/

/-- The mark of the next symbol says whether it is the last of its frame. -/
theorem State.nextSymbol_last {s : State} {y : TxSym} (h : s.nextSymbol = some y) : y.getLsbD 8 = s.atLastByte := by
  obtain ⟨b, -, rfl⟩ := Option.map_eq_some_iff.mp h
  exact txSymbol_last _ b

/-- TX.EMIT answers a next state only where it names the symbol that comes next. -/
theorem execTxEmit_next {last : Bool} {b : Byte} {s t : State} (h : execTxEmit last b s = .next t) :
    s.nextSymbol = some (txSymbol last b) ∧ emitNext s = .next t := by
  rw [execTxEmit] at h
  split at h
  · cases h
  · next named =>
    obtain ⟨hs, y, hy, -⟩ := emitNext_next.mp h
    exact ⟨by simpa [hs, hy] using named, h⟩

theorem executes_of_execTxEmit {last : Bool} {b : Byte} {s t : State} (h : execTxEmit last b s = .next t) :
    Executes s (.txEmit last b) t := by
  obtain ⟨named, h⟩ := execTxEmit_next h
  obtain ⟨hs, y, hy, rfl⟩ := emitNext_next.mp h
  have mark : last = s.atLastByte := by rw [← State.nextSymbol_last named, txSymbol_last]
  exact .emitted y hs hy (.inl ⟨b, by rw [mark]⟩)

theorem executes_of_emitFrame {bytes : List Byte} {i : Instr} {s t : State} (h : emitFrame bytes s = .next t)
    (hi : (∃ d c, i = .frameSetDuty d c) ∨ (∃ p c, i = .frameW p c)) : Executes s i t := by
  obtain ⟨-, -, h⟩ := emitFrame_next.mp h
  obtain ⟨hs, y, hy, rfl⟩ := emitNext_next.mp h
  exact .emitted y hs hy (.inr hi)

/-! ## Any instruction -/

/-- An instruction that answers a next state did so in one of the ways of `Executes`. -/
theorem exec_executes {i : Instr} {s t : State} (h : exec i s = .next t) : Executes s i t := by
  cases i with
  | crcClr => exact executes_of_execCrcClr h
  | crcUpd b => exact executes_of_execCrcUpd h
  | crcRd => exact executes_of_execCrcRd h
  | frmBegin => exact executes_of_execFrmBegin h
  | frmPush b => exact executes_of_execFrmPush h
  | frmSend => exact executes_of_execFrmSend h
  | frmAbort => exact executes_of_execFrmAbort h
  | cmdDuty d => exact executes_of_execCmdDuty h
  | stRd => obtain rfl := Host.Outcome.next.inj ((execStRd_eq s).symm.trans h); exact .stRd
  | txEmit last b => exact executes_of_execTxEmit h
  | reset => cases h; exact .reset
  | frameSetDuty d c => exact executes_of_emitFrame h (.inl ⟨d, c, rfl⟩)
  | frameW p c => exact executes_of_emitFrame h (.inr ⟨p, c, rfl⟩)

/-- A command is accepted outside SEND, and ST.RD in every phase; an accepted one always answers a next state. -/
theorem exists_exec_next {i : Instr} {s : State} (hc : i.isCommand = true) (hs : s.ph ≠ .send ∨ i = .stRd) :
    ∃ t, exec i s = .next t := by
  by_cases hst : i = .stRd
  · subst hst; exact ⟨_, execStRd_eq s⟩
  · have accepted : s.ph ≠ .send := hs.resolve_right hst
    have legalOrSeq (legal : List Phase) (run : State → State) : ∃ t, commandStep legal s run = .next t := by
      by_cases hm : s.ph ∈ legal
      · exact ⟨_, commandStep_run accepted hm run⟩
      · exact ⟨_, commandStep_seq accepted hm run⟩
    cases i with
    | cmdDuty d =>
      change ∃ t, execCmdDuty d s = .next t
      rw [execCmdDuty, whenAccepted_run accepted]
      split
      · exact ⟨_, rfl⟩
      · by_cases hm : s.ph ∈ [Phase.idle]
        · exact ⟨_, whenLegal_mem hm _⟩
        · exact ⟨_, whenLegal_not_mem hm _⟩
    | stRd => exact absurd rfl hst
    | crcClr | crcUpd | crcRd | frmBegin | frmPush | frmSend | frmAbort => exact legalOrSeq _ _
    | txEmit | reset | frameSetDuty | frameW => cases hc

end Sys2Proof.Machine
end

section
/-! What an instruction and a step leave as they are, and everything a step can do, said once. -/

namespace Sys2Proof.Machine

/-! ## What an instruction leaves unchanged -/

/-- No instruction writes the parameters, the HOST's words, the turns or the accepted words. -/
theorem Executes.ports {i : Instr} {s t : State} (h : Executes s i t) :
    t.cfg = s.cfg ∧ t.cmd = s.cmd ∧ t.turns = s.turns ∧ t.accepted = s.accepted := by
  cases h with
  | emitted => simp
  | raised | crcClr | crcUpd | crcRd | frmBegin | frmPush | frmSend | frmAbort | cmdDuty | stRd | reset =>
    exact ⟨rfl, rfl, rfl, rfl⟩

/-- Only TX.EMIT and the wire frames, which the HOST cannot issue, put a symbol on TX. -/
theorem Executes.tx_of_isCommand {i : Instr} {s t : State} (h : Executes s i t) (hc : i.isCommand = true) : t.tx = s.tx := by
  cases h with
  | emitted _ _ _ named => obtain ⟨_, rfl⟩ | ⟨_, _, rfl⟩ | ⟨_, _, rfl⟩ := named <;> cases hc
  | raised | crcClr | crcUpd | crcRd | frmBegin | frmPush | frmSend | frmAbort | cmdDuty | stRd | reset => rfl

/-- The answer of an instruction on RSP (R49, R50): an error's code, or OK with data from CRC.RD and ST.RD alone, for a
command; nothing for the other rows. -/
theorem Executes.response {i : Instr} {s t : State} (h : Executes s i t) :
    (i.isCommand = false ∧ t.rsp = s.rsp) ∨
    (i.isCommand = true ∧ ∃ e : Err, t = s.raise e ∧ (e = .len → s.ph = .build)) ∨
    (i.isCommand = true ∧ t.ef = s.ef ∧ ∃ data, t.rsp = s.rsp ++ [rspWord okCode data] ∧
      (data ≠ 0#16 → i = .crcRd ∨ i = .stRd)) := by
  cases h with
  | raised e command _ len => exact .inr (.inl ⟨command, e, rfl, len⟩)
  | emitted _ _ _ named =>
    refine .inl ⟨?_, by simp⟩
    obtain ⟨_, rfl⟩ | ⟨_, _, rfl⟩ | ⟨_, _, rfl⟩ := named <;> rfl
  | reset => exact .inl ⟨rfl, rfl⟩
  | crcRd => exact .inr (.inr ⟨rfl, rfl, _, rfl, fun _ => .inl rfl⟩)
  | stRd => exact .inr (.inr ⟨rfl, rfl, _, rfl, fun _ => .inr rfl⟩)
  | crcClr | crcUpd | frmBegin | frmPush | frmSend | frmAbort | cmdDuty =>
    exact .inr (.inr ⟨rfl, rfl, 0#16, rfl, fun h0 => absurd rfl h0⟩)

/-- A command answers with one response word. -/
theorem Executes.one_response {i : Instr} {s t : State} (h : Executes s i t) (hc : i.isCommand = true) :
    ∃ r, t.rsp = s.rsp ++ [r] := by
  obtain ⟨hn, -⟩ | ⟨-, e, rfl, -⟩ | ⟨-, -, data, hr, -⟩ := h.response
  · rw [hc] at hn; cases hn
  · exact ⟨_, rfl⟩
  · exact ⟨_, hr⟩

/-! ## What a step can do -/

/-- The ways the agent `u` makes the step from `s`: an accepted word is taken off CMD and its instruction runs or it is
ILLEGAL; a symbol goes out; RESET. The turns after the mover's own are left. -/
inductive Steps (s : State) : Turn → State → Prop
  | ran {w : CmdWord} {ws : List CmdWord} {post : List Turn} {i : Instr} {t : State} (turns : post <:+ s.turns)
      (offered : s.cmd = w :: ws) (accepted : accepts s w = true) (decoded : decodeCommand w = .ok i)
      (executed : Executes { s with turns := post, cmd := ws, accepted := s.accepted ++ [w] } i t) : Steps s .command t
  | illegal {w : CmdWord} {ws : List CmdWord} {post : List Turn} {e : DecodeError} (turns : post <:+ s.turns)
      (offered : s.cmd = w :: ws) (accepted : accepts s w = true) (rejected : decodeCommand w = .error e) :
      Steps s .command (State.raise .illegal { s with turns := post, cmd := ws, accepted := s.accepted ++ [w] })
  | emit {y : TxSym} {post : List Turn} (turns : post <:+ s.turns) (send : s.ph = .send) (next : s.nextSymbol = some y) :
      Steps s .emit (State.putSymbol y (State.advanceFrame { s with turns := post }))
  | reset {post : List Turn} (turns : post <:+ s.turns) : Steps s .reset (State.resetRegisters { s with turns := post })

/-- Neither the next symbol nor anything it is made of depends on the list of turns. -/
theorem State.nextSymbol_turns (s : State) (ts : List Turn) : State.nextSymbol { s with turns := ts } = s.nextSymbol := rfl

/-- The command agent is enabled where an accepted word is offered. -/
theorem enabled_command_iff {s : State} : enabled s .command = true ↔ ∃ w ws, s.cmd = w :: ws ∧ accepts s w = true := by
  cases hc : s.cmd <;> simp [enabled, hc]

/-- The turn of an enabled agent. -/
theorem takeTurn_steps {s t : State} {u : Turn} {post : List Turn} (turns : post <:+ s.turns) (hu : enabled s u = true)
    (h : takeTurn u { s with turns := post } = .next t) : Steps s u t := by
  cases u with
  | command =>
    obtain ⟨w, ws, offered, accepted⟩ := enabled_command_iff.mp hu
    obtain ⟨i, decoded, run⟩ | ⟨e, rejected, run⟩ := takeTurn_command (s := { s with turns := post }) offered
    · exact .ran turns offered accepted decoded (exec_executes (run.symm.trans h))
    · cases run.symm.trans h; exact .illegal turns offered accepted rejected
  | emit =>
    have send : s.ph = .send := by simpa [enabled] using hu
    rw [takeTurn_emit { s with turns := post } send] at h
    obtain ⟨-, y, next, rfl⟩ := emitNext_next.mp h
    exact .emit turns send next
  | reset => cases h; exact .reset turns

/-- Every step is a step of the agent that moves next. -/
theorem step_steps {s t : State} (h : step s = .next t) : ∃ u, s.mover = some u ∧ Steps s u t := by
  obtain ⟨u, post, hm, hu, hst, turns⟩ | ⟨-, hst⟩ := step_cases (s := s)
  · exact ⟨u, hm, takeTurn_steps turns hu (hst.symm.trans h)⟩
  · cases hst.symm.trans h

/-- In SEND a word is accepted with opcode 0x30 alone, and the only instruction with that opcode is ST.RD. -/
theorem eq_stRd_of_accepts_send {s : State} {w : CmdWord} {i : Instr} (accepted : accepts s w = true) (hs : s.ph = .send)
    (decoded : decodeCommand w = .ok i) : i = .stRd :=
  decodeCommand_status (by simpa [accepts, hs] using accepted) decoded

/-! ## Observations along a step -/

/-- Settles O11: each way of stepping leaves the parameters, appends, and takes words and turns from the front. -/
theorem historyOnlyGrows : Obligations.HistoryOnlyGrows := by
  intro s t h
  obtain ⟨u, -, hst⟩ := step_steps h
  cases hst with
  | ran turns offered _ decoded executed =>
    have command := decodeCommand_isCommand decoded
    obtain ⟨hcfg, hcmd, hturns, hacc⟩ := executed.ports
    obtain ⟨r, hrsp⟩ := executed.one_response command
    rw [hcfg, hrsp, executed.tx_of_isCommand command, hacc, hcmd, hturns, offered]
    exact ⟨rfl, List.prefix_append _ _, List.prefix_rfl, List.prefix_append _ _, List.suffix_cons _ _, turns⟩
  | illegal turns offered =>
    rw [offered]
    exact ⟨rfl, List.prefix_append _ _, List.prefix_rfl, List.prefix_append _ _, List.suffix_cons _ _, turns⟩
  | emit turns => simpa using turns
  | reset turns => exact ⟨rfl, List.prefix_rfl, List.prefix_rfl, List.prefix_rfl, List.suffix_rfl, turns⟩

/-- Settles O10: a command step adds one accepted word and one response, any other step none. -/
theorem responsesMatchAcceptedCommands : Obligations.ResponsesMatchAcceptedCommands := by
  intro s t heq h
  obtain ⟨u, -, hst⟩ := step_steps h
  cases hst with
  | ran _ _ _ decoded executed =>
    obtain ⟨-, -, -, hacc⟩ := executed.ports
    obtain ⟨r, hrsp⟩ := executed.one_response (decodeCommand_isCommand decoded)
    simp [hacc, hrsp, heq]
  | illegal => simp [heq]
  | emit => simpa using heq
  | reset => exact heq

end Sys2Proof.Machine
end

section
/-! The register invariants of R14 and R16 along a step. -/

namespace Sys2Proof.Machine

/-! ## One emission -/

theorem State.atLastByte_iff (s : State) : s.atLastByte = true ↔ s.fi.toNat = s.pn.toNat + 4 := by
  simp [State.atLastByte]

theorem State.atLastByte_eq_false_iff (s : State) : s.atLastByte = false ↔ s.fi.toNat ≠ s.pn.toNat + 4 := by
  simp [State.atLastByte]

/-- R90: the emission of the last byte. -/
theorem State.putSymbol_last {s : State} (h : s.fi.toNat = s.pn.toNat + 4) (y : TxSym) :
    State.putSymbol y s.advanceFrame =
      { s with crc := s.cfg.crcInit, ph := .idle, pn := 0#8, pb := [], fi := 0#9, tx := s.tx ++ [y] } := by
  rw [State.advanceFrame_last (s.atLastByte_iff.mpr h)]; rfl

/-- R90: the emission of a byte before the last. -/
theorem State.putSymbol_middle {s : State} (h : s.fi.toNat ≠ s.pn.toNat + 4) (y : TxSym) :
    State.putSymbol y s.advanceFrame = { s with fi := s.fi + 1#9, tx := s.tx ++ [y] } := by
  rw [State.advanceFrame_middle (s.atLastByte_eq_false_iff.mpr h)]; rfl

/-! ## The parts of the invariants -/

theorem State.Inv.filled {s : State} (hI : s.Inv) : s.BufferFilled := hI.1

theorem State.Inv.pn_eq_zero {s : State} (hI : s.Inv) (idle : s.ph = .idle) : s.pn = 0#8 := by
  obtain ⟨-, hidle, -, -⟩ := hI
  exact (hidle idle).1

theorem State.Inv.crc_build {s : State} (hI : s.Inv) (build : s.ph = .build) : s.crc = crc16Raw s.cfg s.payload := by
  obtain ⟨-, -, hbuild, -⟩ := hI
  exact (hbuild build).2

/-- Outside SEND no frame is in flight. -/
theorem State.Inv.fi_eq_zero {s : State} (hI : s.Inv) (hs : s.ph ≠ .send) : s.fi = 0#9 := by
  obtain ⟨-, hidle, hbuild, -⟩ := hI
  cases hp : s.ph with
  | idle => exact (hidle hp).2
  | build => exact (hbuild hp).1
  | send => exact absurd hp hs

/-- In SEND, `FI` is a wire index of the frame. -/
theorem State.Inv.fi_le {s : State} (hI : s.Inv) (hs : s.ph = .send) : s.fi.toNat ≤ s.pn.toNat + 4 := by
  obtain ⟨-, -, -, hfrozen⟩ := hI
  obtain ⟨-, hfi, -⟩ := hfrozen hs
  exact hfi

/-- In SEND at least one payload byte is held. -/
theorem State.Inv.one_le_pn {s : State} (hI : s.Inv) (hs : s.ph = .send) : 1 ≤ s.pn.toNat := by
  obtain ⟨-, -, -, hfrozen⟩ := hI
  exact (hfrozen hs).1

/-- FRM.SEND is accepted with a byte held. -/
theorem one_le_of_ne_zero {n : BitVec 8} (h : n ≠ 0#8) : 1 ≤ n.toNat :=
  Nat.one_le_iff_ne_zero.mpr fun h0 => h (BitVec.eq_of_toNat_eq h0)

/-! ## One byte pushed -/

theorem toNat_add_one_of_lt {n : BitVec 8} (h : n.toNat < 255) : (n + 1#8).toNat = n.toNat + 1 := by
  rw [BitVec.toNat_add]
  exact Nat.mod_eq_of_lt (Nat.succ_lt_succ h)

/-- Below 255 bytes, a byte appended to a filled buffer comes after the payload. -/
theorem State.BufferFilled.appendByte_pb {s : State} (hfill : s.BufferFilled) (room : s.pn.toNat < 255) (b : Byte) :
    (s.appendByte b).pb = Memory.ofBytes 0 (s.payload ++ [b]) := by
  have written : s.pb.write s.pn.toNat b = Memory.ofBytes 0 (s.payload ++ [b]) := by
    conv_lhs => rw [hfill.pb_eq, ← hfill.length_payload, ← Nat.zero_add s.payload.length]
    exact Memory.write_ofBytes 0 s.payload b
  rw [State.appendByte_pb, written, toNat_add_one_of_lt room,
    Memory.below_ofBytes (by simp [hfill.length_payload])]

theorem State.BufferFilled.length_append {s : State} (hfill : s.BufferFilled) (room : s.pn.toNat < 255) (b : Byte) :
    (s.payload ++ [b]).length = (s.pn + 1#8).toNat := by
  rw [toNat_add_one_of_lt room, List.length_append, hfill.length_payload]; rfl

/-- FRM.PUSH below the limit leaves room in the index range of `PB`. -/
theorem pn_lt_of_room {s : State} (room : s.pn.toNat < s.cfg.maxPayload.val) : s.pn.toNat < 255 := by
  have := s.cfg.maxPayload.isLt
  omega

/-- FRM.PUSH keeps the invariants: the byte goes after the payload, and into `CRC` after the payload's. -/
theorem State.inv_pushed {s : State} (hI : s.Inv) (build : s.ph = .build) (room : s.pn.toNat < 255) (b : Byte) :
    State.Inv (State.respondOk (State.appendByte b { s with crc := crcStep s.crc b })) := by
  have hfill := hI.filled
  have hfi := hI.fi_eq_zero (by simp [build])
  have hl := hfill.length_append room b
  have hpb := hfill.appendByte_pb room b
  have payload : (State.respondOk (State.appendByte b { s with crc := crcStep s.crc b })).payload = s.payload ++ [b] :=
    State.payload_of_pb hl hpb
  refine ⟨State.bufferFilled_of_bytes hl hpb, fun hp => ?_, fun _ => ⟨hfi, ?_⟩, fun hp => ?_⟩
  · cases build.symm.trans hp
  · rw [payload, crc16Raw, crcFold_append]
    exact congrArg (crcStep · b) (hI.crc_build build)
  · cases build.symm.trans hp

/-! ## Every instruction -/

/-- The emission of a symbol keeps the invariants. -/
theorem State.inv_emitted {s : State} (hI : s.Inv) (hs : s.ph = .send) (y : TxSym) :
    State.Inv (State.putSymbol y s.advanceFrame) := by
  have hfi := hI.fi_le hs
  by_cases hlast : s.fi.toNat = s.pn.toNat + 4
  · rw [State.putSymbol_last hlast]
    exact State.inv_idle rfl rfl rfl rfl
  · rw [State.putSymbol_middle hlast]
    exact State.inv_of_next_byte hI hs (by omega) _

/-- Every instruction keeps the invariants. -/
theorem Executes.inv {i : Instr} {s t : State} (h : Executes s i t) (hI : s.Inv) : t.Inv := by
  cases h with
  | raised | crcRd | stRd => exact State.inv_congr hI rfl rfl rfl rfl rfl rfl
  | crcClr idle | crcUpd _ idle =>
    exact State.inv_idle idle (hI.pn_eq_zero idle) (hI.pb_idle idle) (hI.fi_eq_zero (by simp [idle]))
  | frmBegin idle =>
    have hfi := hI.fi_eq_zero (by simp [idle])
    exact ⟨by simp [State.BufferFilled], fun hp => (by cases hp), fun _ => ⟨hfi, rfl⟩, fun hp => (by cases hp)⟩
  | frmPush b build room => exact State.inv_pushed hI build (pn_lt_of_room room) b
  | frmSend build filled =>
    exact ⟨hI.filled, fun hp => (by cases hp), fun hp => (by cases hp),
      fun _ => ⟨one_le_of_ne_zero filled, Nat.zero_le _, hI.crc_build build⟩⟩
  | frmAbort accepted => exact State.inv_idle rfl rfl (Memory.below_zero _) (hI.fi_eq_zero accepted)
  | cmdDuty d idle => exact State.dutyFrozen_inv hI idle d
  | emitted y send => exact State.inv_emitted hI send y
  | reset => exact State.inv_idle rfl rfl (Memory.below_zero _) rfl

/-- Settles O15: the HOST's part of a step touches no register, and what each agent then does keeps the invariants. -/
theorem stepKeepsRegisterInvariants : Obligations.StepKeepsRegisterInvariants := by
  intro s t hI h
  obtain ⟨u, -, hst⟩ := step_steps h
  cases hst with
  | ran _ _ _ _ executed => exact executed.inv (State.inv_congr hI rfl rfl rfl rfl rfl rfl)
  | illegal => exact State.inv_congr hI rfl rfl rfl rfl rfl rfl
  | @emit y post _ send =>
    exact State.inv_emitted (s := { s with turns := post }) (State.inv_congr hI rfl rfl rfl rfl rfl rfl) send y
  | reset => exact State.inv_idle rfl rfl (Memory.below_zero _) rfl

/-- Settles O14: at reset the block is in IDLE with everything cleared. -/
theorem resetStateIsGood : Obligations.ResetStateIsGood := State.inv_idle rfl rfl rfl rfl

/-! ## The canonical form of the buffer (R16) -/

/-- The emission of a symbol keeps the buffer or clears it. -/
theorem State.pb_wf_emitted {s : State} (hwf : s.pb.wf = true) (y : TxSym) :
    (State.putSymbol y s.advanceFrame).pb.wf = true := by
  by_cases hlast : s.fi.toNat = s.pn.toNat + 4
  · rw [State.putSymbol_last hlast]; rfl
  · rw [State.putSymbol_middle hlast]; exact hwf

/-- Every instruction keeps the canonical form: FRM.PUSH writes below index 255, CMD.DUTY the first five entries. -/
theorem Executes.pb_wf {i : Instr} {s t : State} (h : Executes s i t) (hwf : s.pb.wf = true) : t.pb.wf = true := by
  cases h with
  | raised | crcClr | crcUpd | crcRd | frmSend | stRd => exact hwf
  | frmBegin | frmAbort | reset => exact Memory.wf_below 0 hwf
  | frmPush b _ room => exact Memory.wf_below _ (Memory.wf_write (pn_lt_of_room room) b hwf)
  | cmdDuty d => exact Memory.wf_below _ (Memory.wf_writeBytes (by simp [dutyPayload, be32]) hwf)
  | emitted y => exact State.pb_wf_emitted hwf y

/-- Settles O16: each way of stepping keeps the canonical form of `PB`. -/
theorem stepKeepsBufferCanonical : Obligations.StepKeepsBufferCanonical := by
  intro s t hwf h
  obtain ⟨u, -, hst⟩ := step_steps h
  cases hst with
  | ran _ _ _ _ executed => exact executed.pb_wf hwf
  | illegal => exact hwf
  | @emit y post => exact State.pb_wf_emitted (s := { s with turns := post }) hwf y
  | reset => exact Memory.wf_below 0 hwf

end Sys2Proof.Machine
end

section
/-! Which steps are enabled, what a held command does, and that every accepted command is answered (R48, R126, R127). -/

namespace Sys2Proof.Machine

/-! ## Held and accepted commands -/

/-- Outside SEND, or with opcode 0x30, a command word is accepted; every other word is held. -/
theorem accepts_eq_false_iff {s : State} {w : CmdWord} :
    accepts s w = false ↔ s.ph = .send ∧ opcodeField w ≠ 0x30#8 := by
  simp [accepts]

theorem accepts_iff {s : State} {w : CmdWord} : accepts s w = true ↔ s.ph ≠ .send ∨ opcodeField w = 0x30#8 := by
  simp [accepts]

theorem enabled_command_offered {s : State} {w : CmdWord} {ws : List CmdWord} (offered : s.cmd = w :: ws) :
    enabled s .command = accepts s w := by
  simp [enabled, offered]

/-- The next agent's step, where that agent is enabled. -/
theorem step_enabled {s : State} {u : Turn} {ts : List Turn} (turns : s.turns = u :: ts) (hu : enabled s u = true) :
    step s = takeTurn u { s with turns := ts } := by
  rw [step, turns, stepTurns_enabled hu]

/-- `stepTurns` looks at the list of turns it is given, not at the state's own. -/
theorem stepTurns_turns (ts l : List Turn) (s : State) : stepTurns ts { s with turns := l } = stepTurns ts s := by
  induction ts with
  | nil => rfl
  | cons t ts ih => simp only [stepTurns, enabled_turns, ih]

/-- A disabled agent gives its turn away. -/
theorem step_disabled {s : State} {u : Turn} {ts : List Turn} (turns : s.turns = u :: ts) (hu : enabled s u = false) :
    step s = step { s with turns := ts } := by
  rw [step, turns, stepTurns_disabled hu]
  exact (stepTurns_turns ts ts s).symm

/-- R126: every command but ST.RD is held in SEND. -/
theorem exec_held {s : State} {i : Instr} (command : i.isCommand = true) (hst : i ≠ .stRd) (hs : s.ph = .send) :
    exec i s = .refused .held := by
  cases i with
  | crcClr | crcUpd | crcRd | frmBegin | frmPush | frmSend | frmAbort => exact commandStep_send hs _
  | cmdDuty d => exact (whenAccepted_send hs _ : execCmdDuty d s = _)
  | stRd => exact absurd rfl hst
  | txEmit | reset | frameSetDuty | frameW => cases command

/-- The accepted instruction of a command step leaves SEND alone: it is ST.RD. -/
theorem ph_of_accepted_send {s t s' : State} {w : CmdWord} {i : Instr} (executed : Executes s' i t)
    (decoded : decodeCommand w = .ok i) (accepted : accepts s w = true) (hs : s.ph = .send) (hph : s'.ph = s.ph) :
    t.ph = .send := by
  obtain rfl := eq_stRd_of_accepts_send accepted hs decoded
  cases executed with
  | raised | stRd => exact hph.trans hs
  | emitted _ _ _ named => obtain ⟨_, h⟩ | ⟨_, _, h⟩ | ⟨_, _, h⟩ := named <;> cases h

/-- Settles O7: acceptance looks at the phase and the opcode, and in SEND only the last TX.EMIT and RESET write `PH`. -/
theorem commandsHeldWhileSending : Obligations.CommandsHeldWhileSending := by
  refine ⟨?disabled, ?givenAway, fun s i => exec_held, ?offer, ?leave⟩
  case disabled =>
    intro s w ws offered
    rw [enabled_command_offered offered, accepts_eq_false_iff]
  case givenAway =>
    intro s ts w ws turns offered hs hop
    exact step_disabled turns ((enabled_command_offered offered).trans (accepts_eq_false_iff.mpr ⟨hs, hop⟩))
  case offer =>
    intro s t h hm
    obtain ⟨u, hu, hst⟩ := step_steps h
    cases hst with
    | ran | illegal => exact absurd hu hm
    | emit => simp
    | reset => rfl
  case leave =>
    intro s t h hs ht
    obtain ⟨u, hu, hst⟩ := step_steps h
    cases hst with
    | ran _ _ accepted decoded executed => exact absurd (ph_of_accepted_send executed decoded accepted hs rfl) ht
    | illegal => exact absurd hs ht
    | @emit y post =>
      refine .inl ⟨hu, ?_⟩
      by_contra hmiddle
      have middle : s.fi.toNat ≠ s.pn.toNat + 4 := mt s.atLastByte_iff.mpr hmiddle
      rw [State.putSymbol_middle (s := { s with turns := post }) middle] at ht
      exact ht hs
    | reset => exact .inr hu

/-! ## Steps that answer -/

/-- An accepted word is answered with a next state, whether it decodes or not. -/
theorem exists_takeTurn_command {s : State} {w : CmdWord} {ws : List CmdWord} (offered : s.cmd = w :: ws)
    (accepted : accepts s w = true) : ∃ t, takeTurn .command s = .next t := by
  obtain ⟨i, decoded, run⟩ | ⟨e, -, run⟩ := takeTurn_command offered
  · rw [run]
    refine exists_exec_next (decodeCommand_isCommand decoded) ?_
    by_cases hs : s.ph = .send
    · exact .inr (eq_stRd_of_accepts_send accepted hs decoded)
    · exact .inl hs
  · exact ⟨_, run⟩

/-- In SEND, under the invariants, the next symbol is defined. -/
theorem State.Inv.exists_nextSymbol {s : State} (hI : s.Inv) (hs : s.ph = .send) :
    ∃ y, (frameSymbols (frameOf s.cfg s.payload))[s.fi.toNat]? = some y ∧ s.nextSymbol = some y := by
  have hfi := hI.fi_le hs
  have inside : s.fi.toNat < (frameSymbols (frameOf s.cfg s.payload)).length := by
    rw [frameSymbols_length, frameOf_length, hI.filled.length_payload]; omega
  refine ⟨_, List.getElem?_eq_getElem inside, ?_⟩
  rw [State.nextSymbol_of_frozen hI hs, List.getElem?_eq_getElem inside]

/-- Settles O8: an enabled command step is answered, a frozen frame has a next symbol, and RESET always answers. -/
theorem stepCompletesFromGoodStates : Obligations.StepCompletesFromGoodStates := by
  intro s hI
  obtain ⟨u, post, hm, hu, hst, -⟩ | ⟨hm, hst⟩ := step_cases (s := s)
  · refine ⟨fun _ => ?_, fun hnone => (by rw [hm] at hnone; cases hnone)⟩
    rw [hst]
    cases u with
    | command =>
      obtain ⟨w, ws, offered, accepted⟩ := enabled_command_iff.mp hu
      exact exists_takeTurn_command (s := { s with turns := post }) offered accepted
    | emit =>
      have hs : s.ph = .send := by simpa [enabled] using hu
      obtain ⟨y, -, hy⟩ := hI.exists_nextSymbol hs
      rw [takeTurn_emit { s with turns := post } hs]
      exact ⟨_, emitNext_send (s := { s with turns := post }) hs hy⟩
    | reset => exact ⟨_, rfl⟩
  · refine ⟨fun ⟨u, hu⟩ => (by rw [hm] at hu; cases hu), fun _ => hst⟩

/-- Settles O9: outside SEND every word is accepted, and what it runs answers with one response. -/
theorem everyAcceptedCommandIsAnswered : Obligations.EveryAcceptedCommandIsAnswered := by
  intro s ts w ws turns offered hs
  have hu : enabled s .command = true := (enabled_command_offered offered).trans (accepts_iff.mpr (.inl hs))
  rw [step_enabled turns hu]
  obtain ⟨i, decoded, run⟩ | ⟨e, -, run⟩ := takeTurn_command (s := { s with turns := ts }) offered
  · have command := decodeCommand_isCommand decoded
    obtain ⟨t, ht⟩ :=
      exists_exec_next (s := { s with turns := ts, cmd := ws, accepted := s.accepted ++ [w] }) command (.inl hs)
    have executed := exec_executes ht
    obtain ⟨-, hcmd, -, hacc⟩ := executed.ports
    obtain ⟨r, hrsp⟩ := executed.one_response command
    exact ⟨t, r, run.trans ht, hrsp, hacc, hcmd, executed.tx_of_isCommand command⟩
  · exact ⟨_, _, run, rfl, rfl, rfl, rfl⟩

end Sys2Proof.Machine
end

section
/-! The frame in flight: what is out of it, one TX.EMIT of it, and a run of them (R39, R81, R90, R91, R141). -/

namespace Sys2Proof.Machine

/-! ## The register view -/

/-- The symbols of a frozen frame are one for each of its `PN + 5` bytes. -/
theorem State.Inv.length_symbols {s : State} (hI : s.Inv) :
    (frameSymbols (frameOf s.cfg s.payload)).length = s.pn.toNat + 5 := by
  rw [frameSymbols_length, frameOf_length, hI.filled.length_payload]

theorem State.frameBytes_of_frozen {s : State} (hI : s.Inv) (hs : s.ph = .send) :
    s.frameBytes = some (frameOf s.cfg s.payload) := by
  have len : s.pn.toNat + 5 = (frameOf s.cfg s.payload).length := by rw [frameOf_length, hI.filled.length_payload]
  rw [State.frameBytes, len]
  exact mapM_range_eq _ _ (fun i _ => State.frameByte_of_frozen hI hs i)

/-- Settles O33: every `frame_byte` of a frozen frame is the byte of `frame_of` at that index. -/
theorem frameViewIsFrameOfPayload : Obligations.FrameViewIsFrameOfPayload := fun _ hI hs =>
  ⟨State.frameBytes_of_frozen hI hs, fun i _ => State.frameByte_of_frozen hI hs i, fun _ => State.frameByte_beyond⟩

/-! ## What is out of the frame in flight -/

theorem State.inFlight_of_send {s : State} (hs : s.ph = .send) :
    s.inFlight = (frameSymbols (frameOf s.cfg s.payload)).take s.fi.toNat := by
  simp [State.inFlight, hs]

theorem State.inFlight_of_ne_send {s : State} (hs : s.ph ≠ .send) : s.inFlight = [] := by
  cases hp : s.ph <;> simp_all [State.inFlight]

theorem State.inFlight_of_fi_zero {s : State} (h : s.fi = 0#9) : s.inFlight = [] := by
  by_cases hs : s.ph = .send
  · simp [State.inFlight_of_send hs, h]
  · exact State.inFlight_of_ne_send hs

/-- What is out depends on the parameters and on `PH`, `PN`, `PB` and `FI` alone. -/
theorem State.inFlight_congr {s t : State} (hcfg : t.cfg = s.cfg) (hph : t.ph = s.ph) (hpn : t.pn = s.pn)
    (hpb : t.pb = s.pb) (hfi : t.fi = s.fi) : t.inFlight = s.inFlight := by
  rw [State.inFlight, State.inFlight, hph, hcfg, State.payload_congr hpn hpb, hfi]

/-- A step that puts nothing on TX and leaves what is out of the frame in flight carries the same frames. -/
theorem State.FramesOut.congr {s t : State} {done : List (List Byte)} (h : s.FramesOut done) (hcfg : t.cfg = s.cfg)
    (htx : t.tx = s.tx) (hout : t.inFlight = s.inFlight) : t.FramesOut done := by
  rw [State.FramesOut, hcfg, htx, hout]
  exact h

/-- With no byte out of either frame in flight, the same is out of both: nothing. -/
theorem State.inFlight_eq_of_fi_zero {s t : State} (hs : s.fi = 0#9) (ht : t.fi = 0#9) : t.inFlight = s.inFlight :=
  (State.inFlight_of_fi_zero ht).trans (State.inFlight_of_fi_zero hs).symm

/-- A command changes nothing about what is out of the frame in flight: FRM.SEND and CMD.DUTY begin one with no byte out. -/
theorem Executes.inFlight_of_isCommand {i : Instr} {s t : State} (h : Executes s i t) (hc : i.isCommand = true)
    (hI : s.Inv) : t.inFlight = s.inFlight := by
  cases h with
  | raised | crcRd | stRd => exact State.inFlight_congr rfl rfl rfl rfl rfl
  | crcClr here | crcUpd _ here | frmBegin here | frmPush _ here =>
    have hfi := hI.fi_eq_zero (by simp [here])
    exact State.inFlight_eq_of_fi_zero hfi hfi
  | frmAbort accepted => exact State.inFlight_eq_of_fi_zero (hI.fi_eq_zero accepted) (hI.fi_eq_zero accepted)
  | frmSend here | cmdDuty _ here => exact State.inFlight_eq_of_fi_zero (hI.fi_eq_zero (by simp [here])) rfl
  | emitted _ _ _ named => obtain ⟨_, rfl⟩ | ⟨_, _, rfl⟩ | ⟨_, _, rfl⟩ := named <;> cases hc
  | reset => cases hc

/-! ## One emission -/

theorem toNat_succ_fi {s : State} (hI : s.Inv) (hs : s.ph = .send) : (s.fi + 1#9).toNat = s.fi.toNat + 1 := by
  have hfi := hI.fi_le hs
  rw [BitVec.toNat_add]
  exact Nat.mod_eq_of_lt (by simp; omega)

/-- TX.EMIT from a frozen frame: symbol `FI` of the frame goes out, and `FI` advances or the frame state is cleared. -/
theorem emitNext_of_frozen {s : State} (hI : s.Inv) (hs : s.ph = .send) :
    ∃ y, (frameSymbols (frameOf s.cfg s.payload))[s.fi.toNat]? = some y ∧
      (s.fi.toNat ≠ s.pn.toNat + 4 → emitNext s = .next { s with fi := s.fi + 1#9, tx := s.tx ++ [y] }) ∧
      (s.fi.toNat = s.pn.toNat + 4 → emitNext s = .next { s with
        crc := s.cfg.crcInit, ph := .idle, pn := 0#8, pb := [], fi := 0#9, tx := s.tx ++ [y] }) := by
  obtain ⟨y, symbol, hy⟩ := hI.exists_nextSymbol hs
  refine ⟨y, symbol, fun hmiddle => ?_, fun hlast => ?_⟩
  · rw [emitNext_send hs hy, State.putSymbol_middle hmiddle]
  · rw [emitNext_send hs hy, State.putSymbol_last hlast]

/-- One more symbol of the frame in flight, before the last: TX carries the same whole frames. -/
theorem State.FramesOut.emit_middle {s : State} {done : List (List Byte)} (h : s.FramesOut done) (hI : s.Inv)
    (hs : s.ph = .send) {y : TxSym} (hy : (frameSymbols (frameOf s.cfg s.payload))[s.fi.toNat]? = some y) :
    State.FramesOut { s with fi := s.fi + 1#9, tx := s.tx ++ [y] } done := by
  obtain ⟨sizes, htx⟩ := h
  refine ⟨sizes, ?_⟩
  rw [State.inFlight_of_send (by exact hs)]
  change s.tx ++ [y] = _ ++ (frameSymbols (frameOf s.cfg s.payload)).take (s.fi + 1#9).toNat
  rw [htx, toNat_succ_fi hI hs, State.inFlight_of_send hs, List.take_add_one, hy, Option.toList_some, List.append_assoc]

/-- The last symbol of the frame in flight: its payload is one more whole frame on TX. -/
theorem State.FramesOut.emit_last {s : State} {done : List (List Byte)} (h : s.FramesOut done) (hI : s.Inv)
    (hs : s.ph = .send) (hlast : s.fi.toNat = s.pn.toNat + 4) {y : TxSym}
    (hy : (frameSymbols (frameOf s.cfg s.payload))[s.fi.toNat]? = some y) :
    State.FramesOut { s with crc := s.cfg.crcInit, ph := .idle, pn := 0#8, pb := [], fi := 0#9, tx := s.tx ++ [y] }
      (done ++ [s.payload]) := by
  obtain ⟨sizes, htx⟩ := h
  have len := hI.filled.length_payload
  have whole : (frameSymbols (frameOf s.cfg s.payload)).take s.fi.toNat ++ [y] = frameSymbols (frameOf s.cfg s.payload) := by
    have full := List.take_of_length_le (i := s.fi.toNat + 1) (hI.length_symbols.trans_le (by omega))
    rwa [List.take_add_one, hy] at full
  refine ⟨fun p hp => ?_, ?_⟩
  · obtain hp | hp := List.mem_append.mp hp
    · exact sizes p hp
    · rw [List.mem_singleton.mp hp, len]
      exact ⟨hI.one_le_pn hs, by omega⟩
  · rw [State.inFlight_of_fi_zero rfl]
    simp only [htx, State.inFlight_of_send hs, List.append_assoc, whole]
    simp

/-! ## Every step -/

/-- Settles O39: a command leaves TX and what is out of the frame in flight, a TX.EMIT adds the next symbol of that frame, and
a RESET allowed here finds no symbol of it out. -/
theorem txCarriesWholeFramesInOrder : Obligations.TxCarriesWholeFramesInOrder := by
  intro s t done hI hout h hreset
  obtain ⟨u, hm, hst⟩ := step_steps h
  cases hst with
  | ran _ _ _ decoded executed =>
    have command := decodeCommand_isCommand decoded
    have same := executed.inFlight_of_isCommand command (State.inv_congr hI rfl rfl rfl rfl rfl rfl)
    exact .inl (hout.congr executed.ports.1 (executed.tx_of_isCommand command)
      (same.trans (State.inFlight_congr rfl rfl rfl rfl rfl)))
  | illegal => exact .inl (hout.congr rfl rfl (State.inFlight_congr rfl rfl rfl rfl rfl))
  | @emit y post _ hs hy =>
    have symbol := (State.nextSymbol_of_frozen hI hs).symm.trans hy
    have hI' : State.Inv { s with turns := post } := State.inv_congr hI rfl rfl rfl rfl rfl rfl
    have hout' : State.FramesOut { s with turns := post } done :=
      hout.congr rfl rfl (State.inFlight_congr rfl rfl rfl rfl rfl)
    by_cases hlast : s.fi.toNat = s.pn.toNat + 4
    · rw [State.putSymbol_last (s := { s with turns := post }) hlast]
      exact .inr ⟨hs, rfl, hout'.emit_last hI' hs hlast symbol⟩
    · rw [State.putSymbol_middle (s := { s with turns := post }) hlast]
      exact .inl (hout'.emit_middle hI' hs symbol)
  | reset =>
    have none_out : s.fi = 0#9 := by
      by_cases hs : s.ph = .send
      · exact hreset hm hs
      · exact hI.fi_eq_zero hs
    exact .inl (hout.congr rfl rfl ((State.inFlight_of_fi_zero rfl).trans (State.inFlight_of_fi_zero none_out).symm))

/-- Of the symbols of a frame, only the one at the final index is marked as the last. -/
theorem last_of_mem_take {bs : List Byte} {n : Nat} (hn : n < bs.length) {y : TxSym} (hy : y ∈ (frameSymbols bs).take n) :
    y.getLsbD 8 = false := by
  obtain ⟨i, hi, rfl⟩ := List.mem_take_iff_getElem.mp hy
  have symbol := frameSymbols_getElem? bs i
  rw [List.getElem?_eq_getElem (by omega), List.getElem?_eq_getElem (by omega)] at symbol
  rw [Option.some.inj symbol, txSymbol_last]
  simp
  omega

/-- Settles O17: RESET leaves TX, and `FI` is at most the index of the final symbol, so what is out is not marked. -/
theorem resetTruncatesFrameInFlight : Obligations.ResetTruncatesFrameInFlight := by
  intro s done hI hout hs
  have hfi := hI.fi_le hs
  refine ⟨s.resetRegisters, rfl, ?_, ?_, fun y hy => ?_, State.inFlight_of_ne_send (by simp)⟩
  · rw [State.resetRegisters_tx, hout.2, State.inFlight_of_send hs]
  · rw [List.length_take, hI.length_symbols]; omega
  · refine last_of_mem_take ?_ hy
    rw [frameOf_length, hI.filled.length_payload]; omega

end Sys2Proof.Machine
end

section
/-! Runs of the frame in flight: by turns of the machine, by TX.EMIT and by the wire-frame instructions (R52, R54, R91). -/

namespace Sys2Proof.Machine

/-! ## Turns of TX.EMIT -/

/-- A run begins with the state that its first step answers. -/
theorem run_succ_of_next {M : Host.Core} {s t : M.State} (h : M.step s = .next t) (k : Nat) :
    M.run (k + 1) s = M.run k t := by
  rw [Host.Core.run, h]

/-- `k` turns of TX.EMIT are `k` TX.EMIT steps, with those turns taken. -/
theorem core_run_emits {k : Nat} {s t : State} {ts : List Turn} (turns : s.turns = List.replicate k .emit ++ ts)
    (h : emitTimes k s = .next t) : Sys2Proof.core.run k s = .next { t with turns := ts } := by
  induction k generalizing s t with
  | zero => cases h; subst turns; rfl
  | succ k ih =>
    cases hn : emitNext s with
    | fault r => simp [emitTimes, hn] at h
    | refused r => simp [emitTimes, hn] at h
    | next v =>
      obtain ⟨hs, -⟩ := emitNext_next.mp hn
      have first : step s = .next { v with turns := List.replicate k .emit ++ ts } := by
        rw [step_enabled (ts := List.replicate k .emit ++ ts) turns (by simp [enabled, hs])]
        exact (takeTurn_emit { s with turns := List.replicate k .emit ++ ts } hs).trans (emitNext_turns _ hn)
      rw [emitTimes_succ hn] at h
      exact (run_succ_of_next (M := Sys2Proof.core) first k).trans
        (ih (t := { t with turns := List.replicate k .emit ++ ts }) rfl (emitTimes_turns _ h))

/-- Settles O35: the turns are TX.EMIT steps, and those put a frozen frame on TX. -/
theorem emitStepsTransmitFrozenFrame : Obligations.EmitStepsTransmitFrozenFrame := by
  intro s ts hI hs hfi turns
  have emitted := emitTimes_of_frozen hI hs (k := s.pn.toNat + 5) (by simp [hfi])
  simpa [hfi] using core_run_emits turns emitted

/-- Before the end of the frame, TX.EMIT steps stay in SEND and advance `FI`. -/
theorem emitTimes_before_end {k : Nat} {s : State} (hI : s.Inv) (hs : s.ph = .send)
    (hk : s.fi.toNat + k < s.pn.toNat + 5) :
    ∃ t, emitTimes k s = .next t ∧ t.ph = .send ∧ t.fi.toNat = s.fi.toNat + k := by
  induction k generalizing s with
  | zero => exact ⟨s, rfl, hs, rfl⟩
  | succ k ih =>
    obtain ⟨y, -, middle, -⟩ := emitNext_of_frozen hI hs
    rw [emitTimes_succ (middle (by omega))]
    have hfi := toNat_succ_fi hI hs
    obtain ⟨t, ht, hph, htfi⟩ := ih (State.inv_of_next_byte hI hs (by omega) (s.tx ++ [y])) hs (by simp only [hfi]; omega)
    exact ⟨t, ht, hph, by simp only [htfi, hfi]; omega⟩

/-- Settles O40: the bytes not out yet end the frame, and fewer do not. -/
theorem sinkTakingBytesEndsFrame : Obligations.SinkTakingBytesEndsFrame := by
  intro s hI hs
  have hfi := hI.fi_le hs
  exact ⟨⟨_, emitTimes_of_frozen hI hs (by omega), rfl⟩, fun k hk => emitTimes_before_end hI hs (by omega)⟩

/-! ## Steps of a wire frame -/

/-- A wire frame determines its payload and its checksum field. -/
theorem wireFrame_inj {cfg : Config} {p p' : List Byte} {c c' : BitVec 16} (h : wireFrame cfg p c = wireFrame cfg p' c') :
    p = p' ∧ c = c' := by
  simp only [wireFrame, List.cons.injEq, true_and] at h
  obtain ⟨rfl, tail⟩ := List.append_inj' h.2 rfl
  simp only [List.cons.injEq, and_true] at tail
  exact ⟨rfl, by rw [← hiByte_append_loByte c, tail.1, tail.2, hiByte_append_loByte]⟩

theorem emitFrame_not_send {s : State} (hs : s.ph ≠ .send) (bytes : List Byte) :
    emitFrame bytes s = .refused .frameNotInFlight := by
  cases hp : s.ph <;> simp_all [emitFrame]

/-- A frame that is not the one in the registers is refused. -/
theorem emitFrame_of_ne {s : State} {bytes now : List Byte} (hs : s.ph = .send) (hb : s.frameBytes = some now)
    (hne : now ≠ bytes) : emitFrame bytes s = .refused .frameNotInFlight := by
  simp [emitFrame, hs, hb, hne]

/-- A step of the frame frozen in the registers is TX.EMIT. -/
theorem emitFrame_of_frozen {s : State} (hI : s.Inv) (hs : s.ph = .send) :
    emitFrame (frameOf s.cfg s.payload) s = emitNext s :=
  emitFrame_inFlight hs (State.frameBytes_of_frozen hI hs)

/-- A frame with another payload or checksum than the one frozen is refused. -/
theorem emitFrame_other {s : State} (hI : s.Inv) (hs : s.ph = .send) {p : List Byte} {c : BitVec 16}
    (hne : p ≠ s.payload ∨ c ≠ crc16 s.cfg s.payload) : emitFrame (wireFrame s.cfg p c) s = .refused .frameNotInFlight := by
  refine emitFrame_of_ne hs (State.frameBytes_of_frozen hI hs) (fun h => ?_)
  obtain ⟨hp, hc⟩ := wireFrame_inj h
  exact hne.elim (fun h => h hp.symm) (fun h => h hc.symm)

/-- Steps of the frame frozen in the registers, up to its end, are TX.EMIT steps: the registers hold the same frame
until then. -/
theorem execAll_replicate_frame {i : Instr} {cfg : Config} {p : List Byte}
    (hi : ∀ u : State, u.cfg = cfg → exec i u = emitFrame (frameOf cfg p) u) {k : Nat} {s : State} (hI : s.Inv)
    (hs : s.ph = .send) (hcfg : s.cfg = cfg) (hp : s.payload = p) (hk : s.fi.toNat + k ≤ s.pn.toNat + 5) :
    execAll (List.replicate k i) s = emitTimes k s := by
  induction k generalizing s with
  | zero => rfl
  | succ k ih =>
    have isEmit : exec i s = emitNext s := by rw [hi s hcfg, ← hcfg, ← hp, emitFrame_of_frozen hI hs]
    obtain ⟨y, -, middle, last⟩ := emitNext_of_frozen hI hs
    rw [List.replicate_succ]
    by_cases hlast : s.fi.toNat = s.pn.toNat + 4
    · obtain rfl : k = 0 := by omega
      rw [execAll_cons_of_next (isEmit.trans (last hlast)), emitTimes_succ (last hlast)]
      rfl
    · rw [execAll_cons_of_next (isEmit.trans (middle hlast)), emitTimes_succ (middle hlast)]
      refine ih (State.inv_of_next_byte hI hs (by have := hI.fi_le hs; omega) _) hs hcfg hp ?_
      simp only [toNat_succ_fi hI hs]
      omega

/-- A whole frame, from no byte out. -/
theorem execAll_replicate_whole_frame {i : Instr} {s : State}
    (hi : ∀ u : State, u.cfg = s.cfg → exec i u = emitFrame (frameOf s.cfg s.payload) u) (hI : s.Inv) (hs : s.ph = .send)
    (hfi : s.fi = 0#9) :
    execAll (List.replicate (s.pn.toNat + 5) i) s = .next { s with
      crc := s.cfg.crcInit, ph := .idle, pn := 0#8, pb := [], fi := 0#9,
      tx := s.tx ++ frameSymbols (frameOf s.cfg s.payload) } := by
  rw [execAll_replicate_frame hi hI hs rfl rfl (by simp [hfi]), emitTimes_of_frozen hI hs (by simp [hfi])]
  simp [hfi]

/-- FRAME.W of a payload with its checksum is a step of `frame_of` of it. -/
theorem exec_frameW_eq {cfg : Config} (p : List Byte) (u : State) (h : u.cfg = cfg) :
    exec (.frameW p (crc16 cfg p)) u = emitFrame (frameOf cfg p) u := by
  subst h; rfl

/-- Settles O36: FRAME.W is a step of the frame it names, which is TX.EMIT where that is the frozen one. -/
theorem frameWTransmitsFrozenFrame : Obligations.FrameWTransmitsFrozenFrame := by
  refine ⟨fun s hI hs => ⟨?_, ?_, fun p c => emitFrame_other hI hs⟩, fun s p c hs => emitFrame_not_send hs _⟩
  · rw [exec_frameW_eq s.payload s rfl, emitFrame_of_frozen hI hs]
    exact emitNext_of_frozen hI hs
  · exact execAll_replicate_whole_frame (exec_frameW_eq s.payload) hI hs

/-- FRAME.SET_DUTY with its checksum is a step of `frame_of` of the set-duty payload. -/
theorem exec_frameSetDuty_eq {cfg : Config} (d : BitVec 32) (u : State) (h : u.cfg = cfg) :
    exec (.frameSetDuty d (crc16 cfg (cfg.idSetDuty :: be32 d))) u =
      emitFrame (frameOf cfg (cfg.idSetDuty :: be32 d)) u := by
  subst h; rfl

theorem be32_injective : Function.Injective be32 := fun d d' h => by
  simp only [be32, List.cons.injEq, and_true] at h
  obtain ⟨h3, h2, h1, h0⟩ := h
  rw [← be32_join d, h3, h2, h1, h0, be32_join]

/-- Settles O37: the set-duty frame is the frame of its five-byte payload, whose ten symbols are written out. -/
theorem frameSetDutyTransmitsFrozenFrame : Obligations.FrameSetDutyTransmitsFrozenFrame := by
  refine ⟨fun s d hI hs hp => ?_, fun s d c hs => emitFrame_not_send hs _⟩
  intro c symbols
  have hsymbols : frameSymbols (frameOf s.cfg s.payload) = symbols := by rw [hp]; rfl
  have hpn : s.pn.toNat = 5 := by rw [← hI.filled.length_payload, hp]; rfl
  have hi : ∀ u : State, u.cfg = s.cfg → exec (.frameSetDuty d c) u = emitFrame (frameOf s.cfg s.payload) u := by
    rw [hp]; exact exec_frameSetDuty_eq d
  have hlast : s.fi = 9#9 ↔ s.fi.toNat = s.pn.toNat + 4 := by rw [hpn, ← BitVec.toNat_inj]; rfl
  refine ⟨?_, ?_, fun d' c' hne => ?_⟩
  · rw [hi s rfl, emitFrame_of_frozen hI hs, ← hsymbols, ne_eq, hlast]
    exact emitNext_of_frozen hI hs
  · have whole := execAll_replicate_whole_frame hi hI hs
    rwa [hpn, hsymbols] at whole
  · refine emitFrame_other hI hs ?_
    rw [hp]
    exact hne.imp (fun h heq => h (be32_injective (List.cons.inj heq).2)) id

end Sys2Proof.Machine
end

section
/-! Encoder and decoder undo each other (R45 to R55), and decoding follows the opcode map (R47). -/

namespace Sys2Proof.Machine

/-! ## Decoding an encoding -/

theorem decodeFormatN_zero (i : Instr) : decodeFormatN 0#64 i = .ok i := rfl

theorem decodeFormatB_append (f : Byte → Instr) (b : Byte) : decodeFormatB (0#56 ++ b) f = .ok (f b) := by
  rw [decodeFormatB, byteOperandZeros_append, byteOperand_append, if_pos rfl]

theorem decodeCommand_crcUpd (b : Byte) : decodeCommand (encodeFormatB 0x02#8 b) = .ok (.crcUpd b) := by
  simp [decodeCommand, encodeFormatB, decodeFormatB_append]

theorem decodeCommand_frmPush (b : Byte) : decodeCommand (encodeFormatB 0x11#8 b) = .ok (.frmPush b) := by
  simp [decodeCommand, encodeFormatB, decodeFormatB_append]

theorem decodeCommand_cmdDuty (d : BitVec 64) : decodeCommand (encodeFormatD 0x20#8 d) = .ok (.cmdDuty d) := by
  simp [decodeCommand, encodeFormatD]

/-- R47: each of the nine commands is what its word decodes to. -/
theorem decode_encode_of_isCommand {cfg : Config} {i : Instr} (hc : i.isCommand = true) :
    decode cfg (encode cfg i) = .ok i := by
  cases i with
  | crcClr | crcRd | frmBegin | frmSend | frmAbort | stRd => rfl
  | crcUpd b => exact decodeCommand_crcUpd b
  | frmPush b => exact decodeCommand_frmPush b
  | cmdDuty d => exact decodeCommand_cmdDuty d
  | txEmit | reset | frameSetDuty | frameW => cases hc

/-- R54: the set-duty payload is read as FRAME.SET_DUTY. -/
theorem frameInstr_setDuty (cfg : Config) (d : BitVec 32) (c : BitVec 16) :
    frameInstr cfg (cfg.idSetDuty :: be32 d) c = .frameSetDuty d c := by
  simp [frameInstr, be32, be32_join]

/-- Every other payload is read as FRAME.W. -/
theorem frameInstr_general {cfg : Config} {p : List Byte} (h : isSetDutyPayload cfg p = false) (c : BitVec 16) :
    frameInstr cfg p c = .frameW p c := by
  unfold frameInstr
  split
  · rw [if_neg (by simpa [isSetDutyPayload] using h)]
  · rfl

/-- Settles O2: a command's word keeps its fields, and a frame of 1 to 255 payload bytes reads back as its own row's. -/
theorem decodeOfEncode : Obligations.DecodeOfEncode := by
  intro cfg i hwf
  cases i with
  | crcClr | crcUpd | crcRd | frmBegin | frmPush | frmSend | frmAbort | cmdDuty | stRd =>
    exact decode_encode_of_isCommand rfl
  | txEmit last b =>
    change Except.ok (decodeSymbol (txSymbol last b)) = _
    rw [decodeSymbol, txSymbol_last, txSymbol_byte]
  | reset => rfl
  | frameSetDuty d c =>
    have len : (cfg.idSetDuty :: be32 d).length = 5 := rfl
    change decodeFrame cfg (wireFrame cfg (cfg.idSetDuty :: be32 d) c) = _
    rw [decodeFrame_wireFrame cfg c (by omega) (by omega), frameInstr_setDuty]
  | frameW p c =>
    simp only [Instr.wf, Bool.and_eq_true, decide_eq_true_eq, Bool.not_eq_true'] at hwf
    obtain ⟨⟨⟨hmin, hmax⟩, general⟩, -⟩ := hwf
    change decodeFrame cfg (wireFrame cfg p c) = _
    rw [decodeFrame_wireFrame cfg c hmin hmax, frameInstr_general general]

/-! ## Encoding what was decoded -/

theorem encode_of_decodeFormatN {cfg : Config} {w : CmdWord} {i j : Instr} {opc : BitVec 8} (hopc : opcodeField w = opc)
    (hi : encode cfg i = .command (encodeFormatN opc)) (h : decodeFormatN (operandField w) i = .ok j) :
    encode cfg j = .command w := by
  rw [decodeFormatN] at h
  split at h
  · next zero =>
    cases h
    rw [hi, encodeFormatN, ← hopc, ← zero, opcodeField_append_operandField]
  · cases h

theorem encode_of_decodeFormatB {cfg : Config} {w : CmdWord} {f : Byte → Instr} {j : Instr} {opc : BitVec 8}
    (hopc : opcodeField w = opc) (hf : ∀ b, encode cfg (f b) = .command (encodeFormatB opc b))
    (h : decodeFormatB (operandField w) f = .ok j) : encode cfg j = .command w := by
  rw [decodeFormatB] at h
  split at h
  · next zeros =>
    cases h
    rw [hf, encodeFormatB, ← hopc, ← zeros, byteOperandZeros_append_byteOperand, opcodeField_append_operandField]
  · cases h

/-- A command word that decodes is the word of its instruction: one branch for each opcode of R47. -/
theorem encode_of_decodeCommand (cfg : Config) {w : CmdWord} {i : Instr} (h : decodeCommand w = .ok i) :
    encode cfg i = .command w := by
  simp only [decodeCommand] at h
  split at h
  · next hopc => exact encode_of_decodeFormatN hopc rfl h
  split at h
  · next hopc => exact encode_of_decodeFormatB hopc (fun _ => rfl) h
  split at h
  · next hopc => exact encode_of_decodeFormatN hopc rfl h
  split at h
  · next hopc => exact encode_of_decodeFormatN hopc rfl h
  split at h
  · next hopc => exact encode_of_decodeFormatB hopc (fun _ => rfl) h
  split at h
  · next hopc => exact encode_of_decodeFormatN hopc rfl h
  split at h
  · next hopc => exact encode_of_decodeFormatN hopc rfl h
  split at h
  · next hopc =>
    cases h
    rw [encode, encodeFormatD, ← hopc, opcodeField_append_operandField]
  split at h
  · next hopc => exact encode_of_decodeFormatN hopc rfl h
  · cases h

/-- The instruction read from a frame's fields has that frame as its encoding, under either row. -/
theorem encode_frameInstr (cfg : Config) (p : List Byte) (c : BitVec 16) :
    encode cfg (frameInstr cfg p c) = .frame (wireFrame cfg p c) := by
  unfold frameInstr
  split
  · split
    · next hid => rw [encode, be32_append, hid]
    · rfl
  · rfl

/-- A byte string that decodes is a wire frame, and its instruction the one read from its fields. -/
theorem decodeFrame_ok {cfg : Config} {bytes : List Byte} {i : Instr} (h : decodeFrame cfg bytes = .ok i) :
    ∃ p c, bytes = wireFrame cfg p c ∧ i = frameInstr cfg p c := by
  unfold decodeFrame at h
  split at h
  · next start n rest =>
    split at h
    · cases h
    · next hstart =>
      split at h
      · cases h
      · next hlen =>
        split at h
        · next hi lo stop tail =>
          split at h
          · cases h
          · next hstop =>
            cases h
            obtain ⟨-, hrest⟩ := not_or.mp hlen
            have len : (rest.take n.toNat).length = n.toNat := by rw [List.length_take]; omega
            refine ⟨rest.take n.toNat, hi ++ lo, ?_, rfl⟩
            rw [wireFrame, len, BitVec.ofNat_toNat, BitVec.setWidth_eq, hiByte_append, loByte_append,
              ← not_not.mp hstart, ← not_not.mp hstop, ← tail, List.take_append_drop]
        · cases h
  · cases h

/-- Settles O3: on each port, a word that decodes is put together again from the fields read. -/
theorem encodeOfDecode : Obligations.EncodeOfDecode := by
  intro cfg pw i h
  cases pw with
  | command w => exact encode_of_decodeCommand cfg h
  | symbol y =>
    cases h
    exact congrArg PortWord.symbol (txSymbol_split y)
  | event e =>
    simp only [decode, decodeEvent] at h
    split at h
    · next he => cases h; rw [he]; rfl
    · cases h
  | frame bytes =>
    obtain ⟨p, c, rfl, rfl⟩ := decodeFrame_ok h
    exact encode_frameInstr cfg p c

/-! ## The opcode map -/

theorem append_inj {n m : Nat} {x x' : BitVec n} {y y' : BitVec m} (h : x ++ y = x' ++ y') : x = x' ∧ y = y' :=
  ⟨by rw [← extractLsb'_append_hi x y, h, extractLsb'_append_hi],
    by rw [← extractLsb'_append_lo x y, h, extractLsb'_append_lo]⟩

/-- A row whose mask has all opcode bits selects by the opcode and by the masked operand field. -/
theorem selects_fields {r : OpcodeRow} {w : CmdWord} {o : BitVec 8} {d m : BitVec 64} (hp : r.pattern = o ++ d)
    (hm : r.mask = 0xFF#8 ++ m) (h : r.selects w = true) : opcodeField w = o ∧ operandField w &&& m = d := by
  have masked : w &&& r.mask = r.pattern := by simpa [OpcodeRow.selects] using h
  rw [hp, hm, ← opcodeField_append_operandField w, BitVec.and_append] at masked
  obtain ⟨ho, hd⟩ := append_inj masked
  refine ⟨?_, hd⟩
  rwa [show (0xFF#8 : BitVec 8) = BitVec.allOnes 8 from rfl, BitVec.and_allOnes] at ho

/-- A row of format N selects the one word of its command. -/
theorem encode_of_selects_formatN {cfg : Config} {r : OpcodeRow} {w : CmdWord} {i : Instr} {opc : BitVec 8}
    (hi : encode cfg i = .command (encodeFormatN opc)) (hp : r.pattern = opc ++ 0#64)
    (hm : r.mask = 0xFF#8 ++ 0xFFFFFFFFFFFFFFFF#64) (h : r.selects w = true) : encode cfg i = .command w := by
  obtain ⟨ho, hd⟩ := selects_fields hp hm h
  rw [show (0xFFFFFFFFFFFFFFFF#64 : BitVec 64) = BitVec.allOnes 64 from rfl, BitVec.and_allOnes] at hd
  rw [hi, encodeFormatN, ← ho, ← hd, opcodeField_append_operandField]

/-- A row of format B selects the words of its command with some byte. -/
theorem encode_of_selects_formatB {cfg : Config} {r : OpcodeRow} {w : CmdWord} {f : Byte → Instr} {opc : BitVec 8}
    (hf : ∀ b, encode cfg (f b) = .command (encodeFormatB opc b)) (hp : r.pattern = opc ++ 0#64)
    (hm : r.mask = 0xFF#8 ++ (0xFFFFFFFFFFFFFF#56 ++ 0#8)) (h : r.selects w = true) :
    encode cfg (f (byteOperand (operandField w))) = .command w := by
  obtain ⟨ho, hd⟩ := selects_fields hp hm h
  rw [← byteOperandZeros_append_byteOperand (operandField w), BitVec.and_append,
    show (0#64 : BitVec 64) = 0#56 ++ 0#8 from rfl] at hd
  have zeros := (append_inj hd).1
  rw [show (0xFFFFFFFFFFFFFF#56 : BitVec 56) = BitVec.allOnes 56 from rfl, BitVec.and_allOnes] at zeros
  rw [hf, encodeFormatB, ← ho, ← zeros, byteOperandZeros_append_byteOperand, opcodeField_append_operandField]

/-- A row that selects a word has a command with the row's mnemonic and that word. -/
theorem exists_encode_of_selects (cfg : Config) {r : OpcodeRow} (hr : r ∈ opcodeMap) {w : CmdWord} (h : r.selects w = true) :
    ∃ i : Instr, i.isCommand = true ∧ i.mnemonic = r.mnemonic ∧ encode cfg i = .command w := by
  simp only [opcodeMap, List.mem_cons, List.not_mem_nil, or_false] at hr
  obtain rfl | rfl | rfl | rfl | rfl | rfl | rfl | rfl | rfl := hr
  · exact ⟨.crcClr, rfl, rfl, encode_of_selects_formatN rfl rfl rfl h⟩
  · exact ⟨.crcUpd _, rfl, rfl, encode_of_selects_formatB (f := .crcUpd) (fun _ => rfl) rfl rfl h⟩
  · exact ⟨.crcRd, rfl, rfl, encode_of_selects_formatN rfl rfl rfl h⟩
  · exact ⟨.frmBegin, rfl, rfl, encode_of_selects_formatN rfl rfl rfl h⟩
  · exact ⟨.frmPush _, rfl, rfl, encode_of_selects_formatB (f := .frmPush) (fun _ => rfl) rfl rfl h⟩
  · exact ⟨.frmSend, rfl, rfl, encode_of_selects_formatN rfl rfl rfl h⟩
  · exact ⟨.frmAbort, rfl, rfl, encode_of_selects_formatN rfl rfl rfl h⟩
  · have opcode := (selects_fields (o := 0x20#8) (d := 0#64) (m := 0#64) rfl rfl h).1
    refine ⟨.cmdDuty (operandField w), rfl, rfl, ?_⟩
    rw [encode, encodeFormatD, ← opcode, opcodeField_append_operandField]
  · exact ⟨.stRd, rfl, rfl, encode_of_selects_formatN rfl rfl rfl h⟩

theorem mnemonic_injective_on_opcodeMap : ∀ r ∈ opcodeMap, ∀ r' ∈ opcodeMap, r.mnemonic = r'.mnemonic → r = r' := by
  decide +kernel

/-- A word selected by a row decodes to a command with the row's mnemonic. -/
theorem exists_decodeCommand_of_selects {r : OpcodeRow} (hr : r ∈ opcodeMap) {w : CmdWord} (h : r.selects w = true) :
    ∃ i, decodeCommand w = .ok i ∧ i.mnemonic = r.mnemonic := by
  obtain ⟨i, command, name, word⟩ := exists_encode_of_selects Config.defaults hr h
  have decoded := decode_encode_of_isCommand (cfg := Config.defaults) command
  rw [word] at decoded
  exact ⟨i, decoded, name⟩

/-- R47 for every instruction: a command's word is selected by the command's row. -/
theorem rowSelects (i : Instr) : Laws.RowSelects.Statement i := by
  cases i with
  | crcClr => exact Laws.RowSelects.crcClr
  | crcUpd b => exact Laws.RowSelects.crcUpd b
  | crcRd => exact Laws.RowSelects.crcRd
  | frmBegin => exact Laws.RowSelects.frmBegin
  | frmPush b => exact Laws.RowSelects.frmPush b
  | frmSend => exact Laws.RowSelects.frmSend
  | frmAbort => exact Laws.RowSelects.frmAbort
  | cmdDuty d => exact Laws.RowSelects.cmdDuty d
  | stRd => exact Laws.RowSelects.stRd
  | txEmit last b => exact Laws.RowSelects.txEmit last b
  | reset => exact Laws.RowSelects.reset
  | frameSetDuty d c => exact Laws.RowSelects.frameSetDuty d c
  | frameW p c => exact Laws.RowSelects.frameW p c

/-- A word that no row selects is rejected (R55 (a)). -/
theorem exists_error_of_not_selects {w : CmdWord} (h : ∀ r ∈ opcodeMap, r.selects w = false) :
    ∃ e, decodeCommand w = .error e := by
  cases hd : decodeCommand w with
  | error e => exact ⟨e, rfl⟩
  | ok i =>
    obtain ⟨r, hr, -, hs⟩ := rowSelects i Config.defaults w (encode_of_decodeCommand _ hd)
    rw [h r hr] at hs
    cases hs

/-- Settles O4: rows that select a word name what it decodes to, so there is at most one. -/
theorem decodingFollowsTheOpcodeMap : Obligations.DecodingFollowsTheOpcodeMap := by
  refine fun w => ⟨fun r hr r' hr' h h' => ?_, fun r hr => exists_decodeCommand_of_selects hr, exists_error_of_not_selects⟩
  obtain ⟨i, decoded, name⟩ := exists_decodeCommand_of_selects hr h
  obtain ⟨i', decoded', name'⟩ := exists_decodeCommand_of_selects hr' h'
  obtain rfl : i = i' := Except.ok.inj (decoded.symm.trans decoded')
  exact mnemonic_injective_on_opcodeMap r hr r' hr' (name.symm.trans name')

end Sys2Proof.Machine
end

section
/-! Steps of words, symbols and frames as the instructions they decode to (R48, R55), and the outcome of each instruction in
each phase (R69 to R71, R82 to R90, R106, R115). -/

namespace Sys2Proof.Machine

/-! ## The machine's step and the decoder -/

/-- R124: raising an error sets its flag and responds with its code. -/
theorem State.raise_eq_afterRaise (e : Err) (s : State) : s.raise e = s.afterRaise e.flag (rspWord e.code 0#16) := rfl

/-- A wire frame as an instruction is a step of the bytes it encodes to. -/
theorem exec_of_encode_frame {i : Instr} {s : State} {bytes : List Byte} (h : encode s.cfg i = .frame bytes) :
    exec i s = emitFrame bytes s := by
  cases i with
  | frameSetDuty | frameW => cases h; rfl
  | crcClr | crcUpd | crcRd | frmBegin | frmPush | frmSend | frmAbort | cmdDuty | stRd | txEmit | reset => cases h

/-- The TXU's step in phase SEND. -/
theorem step_emit {s : State} {ts : List Turn} (turns : s.turns = .emit :: ts) (hs : s.ph = .send) :
    step s = emitNext { s with turns := ts } :=
  (step_enabled turns (by simp [enabled, hs])).trans (takeTurn_emit { s with turns := ts } hs)

/-- The CORE's step for an accepted word. -/
theorem step_command {s : State} {ts : List Turn} {w : CmdWord} {ws : List CmdWord} (turns : s.turns = .command :: ts)
    (offered : s.cmd = w :: ws) (accepted : s.ph ≠ .send ∨ opcodeField w = 0x30#8) :
    step s = takeTurn .command { s with turns := ts } :=
  step_enabled turns ((enabled_command_offered offered).trans (accepts_iff.mpr accepted))

/-- An accepted word that decodes runs its instruction. -/
theorem step_of_decodeCommand {s : State} {ts : List Turn} {w : CmdWord} {ws : List CmdWord} {i : Instr}
    (turns : s.turns = .command :: ts) (offered : s.cmd = w :: ws) (accepted : s.ph ≠ .send ∨ opcodeField w = 0x30#8)
    (decoded : decodeCommand w = .ok i) :
    step s = exec i { s with turns := ts, cmd := ws, accepted := s.accepted ++ [w] } := by
  rw [step_command turns offered accepted]
  obtain ⟨j, hj, run⟩ | ⟨e, he, -⟩ := takeTurn_command (s := { s with turns := ts }) offered
  · obtain rfl : i = j := Except.ok.inj (decoded.symm.trans hj)
    exact run
  · cases decoded.symm.trans he

/-- An accepted word that is rejected by the decoder is ILLEGAL. -/
theorem step_of_rejected {s : State} {ts : List Turn} {w : CmdWord} {ws : List CmdWord} {e : DecodeError}
    (turns : s.turns = .command :: ts) (offered : s.cmd = w :: ws) (accepted : s.ph ≠ .send ∨ opcodeField w = 0x30#8)
    (rejected : decodeCommand w = .error e) :
    step s = .next (State.raise .illegal { s with turns := ts, cmd := ws, accepted := s.accepted ++ [w] }) := by
  rw [step_command turns offered accepted]
  obtain ⟨j, hj, -⟩ | ⟨-, -, run⟩ := takeTurn_command (s := { s with turns := ts }) offered
  · cases rejected.symm.trans hj
  · exact run

/-- Settles O5: a command step is `exec` by the decoder; a TX.EMIT step is `emitNext`, which is what its symbol and its frame
name; a disabled turn is passed on. -/
theorem stepRunsDecodedInstruction : Obligations.StepRunsDecodedInstruction := by
  refine ⟨fun s ts w ws i => step_of_decodeCommand, ?symbol, ?frame, ?reset, fun s t ts => step_disabled⟩
  case symbol =>
    intro s ts y i turns hs hy decoded
    cases decoded
    rw [step_emit turns hs, decodeSymbol]
    change _ = execTxEmit _ _ _
    rw [execTxEmit, txSymbol_split, State.nextSymbol_turns, hy, if_neg (by simp)]
  case frame =>
    intro s ts bytes i turns hs hb decoded
    have word := encodeOfDecode s.cfg (.frame bytes) i decoded
    rw [step_emit turns hs, exec_of_encode_frame (s := { s with turns := ts }) word]
    exact (emitFrame_inFlight (s := { s with turns := ts }) hs hb).symm
  case reset =>
    intro s ts turns
    exact step_enabled turns rfl

/-- Settles O6: no row selects the word, so the decoder rejects it. -/
theorem illegalWordRaisesIllegal : Obligations.IllegalWordRaisesIllegal := by
  intro s ts w ws turns offered accepted unselected
  obtain ⟨e, rejected⟩ := exists_error_of_not_selects unselected
  exact step_of_rejected turns offered accepted rejected

/-! ## The outcome of each command -/

/-- An instruction whose meaning is `commandStep` raises SEQ in a phase that is not legal for it. -/
theorem commandStep_afterRaise {legal : List Phase} {s : State} (hs : s.ph ≠ .send) (h : s.ph ∉ legal)
    (run : State → State) :
    commandStep legal s run = .next (s.afterRaise 0b0100#4 0x30000#19) := commandStep_seq hs h run

/-- Settles O23: CRC.CLR is legal in IDLE alone. -/
theorem crcClrOutcome : Obligations.CrcClrOutcome := fun _ =>
  ⟨rfl, exec_crcClr_idle, fun hb => commandStep_afterRaise (by simp [hb]) (by simp [hb]) _, exec_held rfl (by simp)⟩

/-- A word of format B, its three parts in a row. -/
theorem encodeFormatB_eq (o : BitVec 8) (b : Byte) : encodeFormatB o b = o ++ 0#56 ++ b :=
  (BitVec.append_assoc (x₁ := o) (x₂ := 0#56) (x₃ := b)).symm

/-- Settles O24: CRC.UPD is legal in IDLE alone. -/
theorem crcUpdOutcome : Obligations.CrcUpdOutcome := fun _ b =>
  ⟨congrArg _ (encodeFormatB_eq _ b), fun hi => exec_crcUpd_idle hi b,
    fun hb => commandStep_afterRaise (by simp [hb]) (by simp [hb]) _, exec_held rfl (by simp)⟩

/-- Settles O25: in BUILD `CRC` is that of the payload, so with `CRC_XOROUT` it is the checksum. -/
theorem crcRdOutcome : Obligations.CrcRdOutcome := fun s =>
  ⟨rfl, exec_crcRd_of_ne_send, exec_held rfl (by simp), fun hI hb => by rw [hI.crc_build hb, crc16]⟩

/-- No entry of a cleared buffer holds a value. -/
theorem Memory.read_below_zero (m : Memory) (a : Nat) : (m.below 0).read a = none := by simp

/-- Settles O28: FRM.BEGIN is legal in IDLE alone and clears the buffer. -/
theorem frmBeginOutcome : Obligations.FrmBeginOutcome := fun s =>
  ⟨rfl, fun hi => ⟨_, commandStep_run (by simp [hi]) (by simp [hi]) _, Memory.read_below_zero s.pb, rfl⟩,
    fun hb => commandStep_afterRaise (by simp [hb]) (by simp [hb]) _, exec_held rfl (by simp)⟩

/-- FRM.PUSH in BUILD, below the limit. -/
theorem exec_frmPush_room {s : State} (hb : s.ph = .build) (room : s.pn.toNat < s.cfg.maxPayload.val) (b : Byte) :
    exec (.frmPush b) s = .next (State.respondOk (State.appendByte b { s with crc := crcStep s.crc b })) :=
  (commandStep_run (by simp [hb]) (by simp [hb]) _).trans (by rw [if_neg (Nat.not_le_of_lt room)])

/-- FRM.PUSH in BUILD, at the limit. -/
theorem exec_frmPush_full {s : State} (hb : s.ph = .build) (full : s.cfg.maxPayload.val ≤ s.pn.toNat) (b : Byte) :
    exec (.frmPush b) s = .next (s.raise .len) :=
  (commandStep_run (by simp [hb]) (by simp [hb]) _).trans (by rw [if_pos full])

/-- Settles O29: the entry at `PN` is written, and with `PN` one higher the entries above it hold no value. -/
theorem frmPushOutcome : Obligations.FrmPushOutcome := by
  refine fun s b => ⟨congrArg _ (encodeFormatB_eq _ b), fun hi => commandStep_afterRaise (by simp [hi]) (by simp [hi]) _,
    fun hb full => exec_frmPush_full hb full b, fun hb room => ⟨_, exec_frmPush_room hb room b, ?_⟩, exec_held rfl (by simp)⟩
  have hpn := toNat_add_one_of_lt (pn_lt_of_room room)
  have entry (a : Nat) : ((s.pb.write s.pn.toNat b).below (s.pn + 1#8).toNat).read a =
      if a < s.pn.toNat + 1 then (s.pb.write s.pn.toNat b).read a else none := by rw [Memory.read_below, hpn]
  refine ⟨hpn, ?_, fun a ha => ?_, fun a ha => ?_, rfl⟩
  · exact (entry _).trans (by rw [if_pos (Nat.lt_succ_self _), Memory.read_write_same])
  · exact (entry a).trans (by rw [if_pos (by omega), Memory.read_write_other (by omega)])
  · exact (entry a).trans (by rw [if_neg (by omega)])

/-- FRM.SEND in BUILD with a byte held. -/
theorem exec_frmSend_filled {s : State} (hb : s.ph = .build) (filled : s.pn ≠ 0#8) :
    exec .frmSend s = .next (State.respondOk { s with ph := .send, fi := 0#9 }) :=
  (commandStep_run (by simp [hb]) (by simp [hb]) _).trans (by rw [if_neg filled])

/-- Settles O30: FRM.SEND is legal in BUILD alone, where it looks at `PN`. -/
theorem frmSendOutcome : Obligations.FrmSendOutcome := fun _ =>
  ⟨rfl, fun hi => commandStep_afterRaise (by simp [hi]) (by simp [hi]) _,
    fun hb empty => (commandStep_run (by simp [hb]) (by simp [hb]) _).trans (by rw [if_pos empty]; rfl),
    exec_frmSend_filled, exec_held rfl (by simp)⟩

/-- Settles O31: FRM.ABORT is legal in IDLE and BUILD and clears the buffer. -/
theorem frmAbortOutcome : Obligations.FrmAbortOutcome := fun s =>
  ⟨rfl, fun hs => ⟨_, commandStep_run hs (by cases hp : s.ph <;> simp_all) _, Memory.read_below_zero s.pb, rfl⟩,
    exec_held rfl (by simp)⟩

/-- Settles O59: ST.RD is legal in every phase. -/
theorem stRdOutcome : Obligations.StRdOutcome := fun s => ⟨rfl, execStRd_eq s⟩

/-- TX.EMIT of the byte at `FI` with the mark that belongs there. -/
theorem exec_txEmit_next {s : State} {b : Byte} {last : Bool} (hs : s.ph = .send) (hb : s.frameByte s.fi.toNat = some b)
    (mark : s.atLastByte = last) :
    exec (.txEmit last b) s = .next (State.putSymbol (txSymbol last b) s.advanceFrame) := by
  have hy : s.nextSymbol = some (txSymbol last b) := by rw [State.nextSymbol, hb, mark]; rfl
  change execTxEmit last b s = _
  rw [execTxEmit, if_neg (by simp [hy]), emitNext_send hs hy]

/-- Settles O34: `frame_byte(FI)` is the byte of the next symbol, whose mark says whether `FI` is at the last. -/
theorem txEmitOutcome : Obligations.TxEmitOutcome := by
  intro s b
  refine ⟨by simp [enabled], fun last hs => ?_, fun hs hb hmiddle => ?_, fun hs hb hlast => ?_⟩
  · change execTxEmit last b s = _
    rw [execTxEmit, if_neg (by simp [hs]), emitNext_not_send hs]
  · rw [exec_txEmit_next hs hb (s.atLastByte_eq_false_iff.mpr hmiddle), State.putSymbol_middle hmiddle]; rfl
  · exact ⟨_, by rw [exec_txEmit_next hs hb (s.atLastByte_iff.mpr hlast), State.putSymbol_last hlast], fun _ => rfl, rfl⟩

/-! ## CMD.DUTY -/

theorem exec_cmdDuty_outOfRange {s : State} {d : BitVec 64} (hs : s.ph ≠ .send) (hd : outOfRange d = true) :
    exec (.cmdDuty d) s = .next (s.raise .outOfRange) := by
  change execCmdDuty d s = _
  rw [execCmdDuty, whenAccepted_run hs, if_pos hd]

theorem exec_cmdDuty_build {s : State} {d : BitVec 64} (hb : s.ph = .build) (hd : outOfRange d = false) :
    exec (.cmdDuty d) s = .next (s.raise .seq) := by
  change execCmdDuty d s = _
  rw [execCmdDuty, whenAccepted_run (by simp [hb]), if_neg (by simp [hd]), whenLegal_not_mem (by simp [hb])]

/-- Settles O51: the five bytes written at the indexes 0 to 4 are all that a buffer with `PN = 5` holds. -/
theorem cmdDutyOutcome : Obligations.CmdDutyOutcome := by
  refine fun s d => ⟨rfl, exec_cmdDuty_outOfRange, exec_cmdDuty_build,
    fun hi hd => ⟨_, exec_cmdDuty_idle hi hd, fun a ha => ?_, fun a ha => ?_, rfl⟩, exec_held rfl (by simp)⟩
  · refine (Memory.read_below a 5 _).trans ?_
    rw [if_pos ha, Memory.read_writeBytes, if_pos ⟨Nat.zero_le a, by simpa [dutyPayload, be32] using ha⟩, Nat.sub_zero]
  · exact (Memory.read_below a 5 _).trans (if_neg (by omega))

/-- Settles O1: each word is read by the decoder. -/
theorem specWordsDecode : Obligations.SpecWordsDecode := by
  unfold Obligations.SpecWordsDecode
  decide +kernel

/-- Settles O12: the fields of the reset state. -/
theorem resetStateValues : Obligations.ResetStateValues :=
  ⟨rfl, rfl, rfl, rfl, rfl, rfl, fun _ => rfl, rfl, rfl, rfl, rfl, rfl, rfl, rfl, rfl, rfl⟩

end Sys2Proof.Machine
end

section
/-! Statements over every instruction, read off the ways an instruction answers: what changes `CRC` and `PH`, what an error
does, the response word, the flags (R11, R13, R15, R38, R49, R123, R124, R125). -/

namespace Sys2Proof.Machine

/-! ## CRC, phase and frozen frame -/

/-- The three rows that emit. -/
theorem emitter_of_named {i : Instr} {last : Bool} (hlast : last = true)
    (h : (∃ b, i = .txEmit last b) ∨ (∃ d c, i = .frameSetDuty d c) ∨ (∃ p c, i = .frameW p c)) :
    (∃ b, i = .txEmit true b) ∨ (∃ d c, i = .frameSetDuty d c) ∨ (∃ p c, i = .frameW p c) := by
  rwa [hlast] at h

/-- Settles O27: the other commands do not write `CRC`, and neither does an emission before the last byte. -/
theorem onlyListedInstructionsChangeCrc : Obligations.OnlyListedInstructionsChangeCrc := by
  intro i s t h hne
  cases exec_executes h with
  | raised | crcRd | frmSend | stRd => exact absurd rfl hne
  | crcClr => simp
  | crcUpd => simp
  | frmBegin => simp
  | frmPush => simp
  | frmAbort => simp
  | cmdDuty => simp
  | reset => simp
  | emitted y _ _ named =>
    by_cases hlast : s.atLastByte = true
    · exact .inr (.inr (.inr (.inr (.inr (.inr (.inl ⟨emitter_of_named hlast named, hlast⟩))))))
    · rw [State.putSymbol_middle (mt s.atLastByte_iff.mpr hlast)] at hne
      exact absurd rfl hne

/-- Settles O41: in SEND only ST.RD, the emissions and RESET run, and those that stay in SEND write `FI` and TX at most. -/
theorem frozenFrameIsImmutable : Obligations.FrozenFrameIsImmutable := by
  intro i s t hs h ht
  cases exec_executes h with
  | raised | stRd | crcRd => exact ⟨rfl, rfl, rfl⟩
  | crcClr here | crcUpd _ here | frmBegin here | frmPush _ here | frmSend here | cmdDuty _ here =>
    cases hs.symm.trans here
  | frmAbort | reset => cases ht
  | emitted y =>
    by_cases hlast : s.fi.toNat = s.pn.toNat + 4
    · rw [State.putSymbol_last hlast] at ht
      cases ht
    · rw [State.putSymbol_middle hlast]
      exact ⟨rfl, rfl, rfl⟩

/-- Settles O42: each way of answering that writes `PH` is a row of R13's table. -/
theorem phaseTransitions : Obligations.PhaseTransitions := by
  intro i s t h hne
  cases exec_executes h with
  | raised | crcClr | crcUpd | crcRd | frmPush | stRd => exact absurd rfl hne
  | frmBegin idle => exact .inl ⟨idle, rfl, rfl⟩
  | cmdDuty d idle inRange => exact .inr (.inl ⟨idle, ⟨d, rfl, inRange⟩, rfl⟩)
  | frmSend build filled =>
    exact .inr (.inr (.inl ⟨build, rfl, one_le_of_ne_zero filled, rfl⟩))
  | frmAbort accepted =>
    have build : s.ph = .build := by
      cases hp : s.ph with
      | idle => exact absurd hp.symm hne
      | build => rfl
      | send => exact absurd hp accepted
    exact .inr (.inr (.inr (.inl ⟨build, rfl, rfl⟩)))
  | emitted y send _ named =>
    by_cases hlast : s.fi.toNat = s.pn.toNat + 4
    · rw [State.putSymbol_last hlast]
      exact .inr (.inr (.inr (.inr (.inl ⟨send, emitter_of_named (s.atLastByte_iff.mpr hlast) named, hlast, rfl⟩))))
    · rw [State.putSymbol_middle hlast] at hne
      exact absurd rfl hne
  | reset => exact .inr (.inr (.inr (.inr (.inr ⟨rfl, rfl⟩))))

/-! ## Responses and flags -/

/-- The fields of a response word are its code and its data. -/
theorem rspWord_inj {c c' : BitVec 3} {d d' : BitVec 16} (h : rspWord c d = rspWord c' d') : c = c' ∧ d = d' := append_inj h

/-- One response appended determines it. -/
theorem response_inj {l : List RspWord} {r r' : RspWord} (h : l ++ [r] = l ++ [r']) : r = r' :=
  (List.cons.inj (List.append_cancel_left h)).1

theorem Err.code_injective : Function.Injective Err.code := by
  intro e e'
  cases e <;> cases e' <;> decide

theorem Err.code_ne_okCode (e : Err) : e.code ≠ okCode := by
  cases e <;> decide

/-- An instruction whose one new response has an error's code has raised that error. -/
theorem Executes.eq_raise_of_code {i : Instr} {s t : State} (h : Executes s i t) {e : Err}
    (hr : t.rsp = s.rsp ++ [rspWord e.code 0#16]) : i.isCommand = true ∧ t = s.raise e ∧ (e = .len → s.ph = .build) := by
  obtain ⟨-, none⟩ | ⟨command, e', rfl, len⟩ | ⟨-, -, data, ok, -⟩ := h.response
  · exact absurd (none.symm.trans hr) (by simp)
  · obtain rfl := Err.code_injective (rspWord_inj (response_inj hr)).1
    exact ⟨command, rfl, len⟩
  · exact absurd (rspWord_inj (response_inj (ok.symm.trans hr))).1.symm e.code_ne_okCode

/-- Settles O54: an error's code answers only where the error was raised. -/
theorem errorsChangeOnlyFlagAndResponse : Obligations.ErrorsChangeOnlyFlagAndResponse := by
  intro i s t e h hr
  obtain ⟨-, rfl, -⟩ := (exec_executes h).eq_raise_of_code hr
  rfl

/-- Settles O55: the code is an error's with data 0, or OK. -/
theorem responseWordForm : Obligations.ResponseWordForm := by
  intro i s t h
  obtain hnone | ⟨command, e, rfl, -⟩ | ⟨command, -, data, hr, hdata⟩ := (exec_executes h).response
  · exact .inl hnone
  · refine .inr ⟨command, e.code, 0#16, rfl, by cases e <;> decide, fun h0 => absurd rfl h0⟩
  · exact .inr ⟨command, okCode, data, hr, by decide, fun h0 => ⟨rfl, hdata h0⟩⟩

/-- Settles O56: `EF` is written by RESET and by raising an error alone. -/
theorem flagsAreSticky : Obligations.FlagsAreSticky := by
  intro i s t h
  have executed := exec_executes h
  by_cases hi : i = .reset
  · subst hi; cases h; exact .inl ⟨rfl, rfl⟩
  obtain ⟨hc, hr⟩ | ⟨-, e, rfl, -⟩ | ⟨-, hef, data, hr, -⟩ := executed.response
  · refine .inr (.inl ⟨hi, ?_, fun e he => absurd (hr.symm.trans he) (by simp)⟩)
    cases executed with
    | raised _ command => rw [hc] at command; cases command
    | reset => exact absurd rfl hi
    | emitted => simp
    | crcClr | crcUpd | crcRd | frmBegin | frmPush | frmSend | frmAbort | cmdDuty | stRd => cases hc
  · exact .inr (.inr ⟨hi, e, rfl, rfl⟩)
  · exact .inr (.inl ⟨hi, hef, fun e he => e.code_ne_okCode (rspWord_inj (response_inj (hr.symm.trans he))).1.symm⟩)

/-- Settles O60: the decoder comes first, then the range check of CMD.DUTY; LEN is raised in BUILD alone. -/
theorem errorPriority : Obligations.ErrorPriority := by
  refine ⟨fun s w ws ts e turns offered hs rejected => ?_, fun s d hb hd => ?_, fun i s t h hr => ?_⟩
  · exact ⟨_, step_of_rejected turns offered (.inl hs) rejected, rfl, rfl⟩
  · exact ⟨_, exec_cmdDuty_outOfRange (by simp [hb]) hd, rfl, rfl⟩
  · obtain ⟨-, -, len⟩ := (exec_executes h).eq_raise_of_code (e := .len) hr
    exact len rfl

/-! ## The flags influence nothing -/

/-- What an instruction answers with other flags, compared with what it answered: the same but for `EF`, and for the
response where `sameResponse` does not hold. -/
def AgreesButFlags (sameResponse : Prop) (r r' : Result) : Prop :=
  (∀ t, r = .next t → ∃ u, r' = .next u ∧ u = { t with ef := u.ef, rsp := u.rsp } ∧ (sameResponse → u.rsp = t.rsp)) ∧
  (∀ x, r = .refused x → r' = .refused x) ∧ (∀ x, r = .fault x → r' = .fault x)

theorem AgreesButFlags.refl_refused {P : Prop} (x : Refusal) : AgreesButFlags P (.refused x) (.refused x) :=
  ⟨fun _ h => (by cases h), fun _ h => h, fun _ h => (by cases h)⟩

theorem AgreesButFlags.refl_fault {P : Prop} (x : Fault) : AgreesButFlags P (.fault x) (.fault x) :=
  ⟨fun _ h => (by cases h), fun _ h => (by cases h), fun _ h => h⟩

theorem AgreesButFlags.next {P : Prop} {t u : State} (same : u = { t with ef := u.ef, rsp := u.rsp })
    (response : P → u.rsp = t.rsp) : AgreesButFlags P (.next t) (.next u) :=
  ⟨fun _ h => (by cases h; exact ⟨u, rfl, same, response⟩), fun _ h => (by cases h), fun _ h => (by cases h)⟩

/-- The checks of a command step look at the phase alone, so a rule that the flags do not influence stays so under them. -/
theorem commandStep_agreesButFlags {P : Prop} {legal : List Phase} {s : State} {ef : BitVec 4} {run : State → State}
    (h : AgreesButFlags P (.next (run s)) (.next (run { s with ef := ef }))) :
    AgreesButFlags P (commandStep legal s run) (commandStep legal { s with ef := ef } run) := by
  by_cases hs : s.ph = .send
  · rw [commandStep_send hs, commandStep_send (s := { s with ef := ef }) hs]
    exact .refl_refused _
  · by_cases hm : s.ph ∈ legal
    · rw [commandStep_run hs hm, commandStep_run (s := { s with ef := ef }) hs hm]
      exact h
    · rw [commandStep_seq hs hm, commandStep_seq (s := { s with ef := ef }) hs hm]
      exact .next rfl (fun _ => rfl)

theorem emitNext_undefined {s : State} (hs : s.ph = .send) (hy : s.nextSymbol = none) :
    emitNext s = .fault .frameByteUndefined := by simp [emitNext, hs, hy]

theorem emitFrame_undefined {s : State} (hs : s.ph = .send) (hb : s.frameBytes = none) (bytes : List Byte) :
    emitFrame bytes s = .fault .frameByteUndefined := by simp [emitFrame, hs, hb]

/-- Neither the symbol that goes out nor the advance of the frame looks at the flags. -/
theorem emitNext_agreesButFlags {P : Prop} (s : State) (ef : BitVec 4) :
    AgreesButFlags P (emitNext s) (emitNext { s with ef := ef }) := by
  by_cases hs : s.ph = .send
  · cases hy : s.nextSymbol with
    | none =>
      rw [emitNext_undefined hs hy, emitNext_undefined (s := { s with ef := ef }) hs hy]
      exact .refl_fault _
    | some y =>
      rw [emitNext_send hs hy, emitNext_send (s := { s with ef := ef }) hs hy]
      by_cases hlast : s.fi.toNat = s.pn.toNat + 4
      · rw [State.putSymbol_last hlast, State.putSymbol_last (s := { s with ef := ef }) hlast]
        exact .next rfl (fun _ => rfl)
      · rw [State.putSymbol_middle hlast, State.putSymbol_middle (s := { s with ef := ef }) hlast]
        exact .next rfl (fun _ => rfl)
  · rw [emitNext_not_send hs, emitNext_not_send (s := { s with ef := ef }) hs]
    exact .refl_refused _

theorem execTxEmit_agreesButFlags {P : Prop} (last : Bool) (b : Byte) (s : State) (ef : BitVec 4) :
    AgreesButFlags P (execTxEmit last b s) (execTxEmit last b { s with ef := ef }) := by
  by_cases other : s.ph = .send ∧ s.nextSymbol ≠ none ∧ s.nextSymbol ≠ some (txSymbol last b)
  · rw [execTxEmit, if_pos other, execTxEmit, if_pos (by exact other)]
    exact .refl_refused _
  · rw [execTxEmit, if_neg other, execTxEmit, if_neg (by exact other)]
    exact emitNext_agreesButFlags s ef

theorem emitFrame_agreesButFlags {P : Prop} (bytes : List Byte) (s : State) (ef : BitVec 4) :
    AgreesButFlags P (emitFrame bytes s) (emitFrame bytes { s with ef := ef }) := by
  by_cases hs : s.ph = .send
  · cases hb : s.frameBytes with
    | none =>
      rw [emitFrame_undefined hs hb, emitFrame_undefined (s := { s with ef := ef }) hs hb]
      exact .refl_fault _
    | some now =>
      by_cases hn : now = bytes
      · subst hn
        rw [emitFrame_inFlight hs hb, emitFrame_inFlight (s := { s with ef := ef }) hs hb]
        exact emitNext_agreesButFlags s ef
      · rw [emitFrame_of_ne hs hb hn, emitFrame_of_ne (s := { s with ef := ef }) hs hb hn]
        exact .refl_refused _
  · rw [emitFrame_not_send hs, emitFrame_not_send (s := { s with ef := ef }) hs]
    exact .refl_refused _

theorem execFrmPush_agreesButFlags {P : Prop} (b : Byte) (s : State) (ef : BitVec 4) :
    AgreesButFlags P (execFrmPush b s) (execFrmPush b { s with ef := ef }) := by
  refine commandStep_agreesButFlags ?_
  by_cases full : s.cfg.maxPayload.val ≤ s.pn.toNat
  · rw [if_pos full, if_pos (by exact full)]; exact .next rfl (fun _ => rfl)
  · rw [if_neg full, if_neg (by exact full)]; exact .next rfl (fun _ => rfl)

theorem execFrmSend_agreesButFlags {P : Prop} (s : State) (ef : BitVec 4) :
    AgreesButFlags P (execFrmSend s) (execFrmSend { s with ef := ef }) := by
  refine commandStep_agreesButFlags ?_
  by_cases empty : s.pn = 0#8
  · rw [if_pos empty, if_pos (by exact empty)]; exact .next rfl (fun _ => rfl)
  · rw [if_neg empty, if_neg (by exact empty)]; exact .next rfl (fun _ => rfl)

theorem execCmdDuty_agreesButFlags {P : Prop} (d : BitVec 64) (s : State) (ef : BitVec 4) :
    AgreesButFlags P (execCmdDuty d s) (execCmdDuty d { s with ef := ef }) := by
  cases hd : outOfRange d with
  | true =>
    by_cases hs : s.ph = .send
    · rw [execCmdDuty, whenAccepted_send hs, execCmdDuty, whenAccepted_send (by exact hs)]
      exact .refl_refused _
    · rw [execCmdDuty, whenAccepted_run hs, execCmdDuty, whenAccepted_run (by exact hs), if_pos hd, if_pos hd]
      exact .next rfl (fun _ => rfl)
  | false =>
    -- in range, CMD.DUTY is a command step that is legal in IDLE
    simp only [execCmdDuty, hd, Bool.false_eq_true, if_false]
    exact commandStep_agreesButFlags (legal := [.idle]) (.next rfl (fun _ => rfl))

/-- Settles O57: no check, no symbol and no rule but that of ST.RD looks at `EF`. -/
theorem flagsInfluenceNothing : Obligations.FlagsInfluenceNothing := by
  intro i s ef
  change AgreesButFlags (i ≠ .stRd) (exec i s) (exec i { s with ef := ef })
  cases i with
  | crcClr | crcUpd | crcRd | frmBegin | frmAbort => exact commandStep_agreesButFlags (.next rfl (fun _ => rfl))
  | frmPush b => exact execFrmPush_agreesButFlags b s ef
  | frmSend => exact execFrmSend_agreesButFlags s ef
  | cmdDuty d => exact execCmdDuty_agreesButFlags d s ef
  | stRd =>
    change AgreesButFlags _ (execStRd s) (execStRd _)
    rw [execStRd_eq, execStRd_eq]
    exact .next rfl (fun h => absurd rfl h)
  | txEmit last b => exact execTxEmit_agreesButFlags last b s ef
  | reset => exact .next rfl (fun _ => rfl)
  | frameSetDuty | frameW => exact emitFrame_agreesButFlags _ s ef

end Sys2Proof.Machine
end

section
/-! `FRM.RAW` (R58): FRM.BEGIN, a run of FRM.PUSH and FRM.SEND freeze the frame of the bytes pushed, as CMD.DUTY does in one
step (R91, R106). -/

namespace Sys2Proof.Machine

/-- A count of at most 255 bytes fits `PN`. -/
theorem toNat_ofNat_of_le {n : Nat} (h : n ≤ 255) : (BitVec.ofNat 8 n).toNat = n := by
  rw [BitVec.toNat_ofNat, Nat.mod_eq_of_lt (by omega)]

/-- The state in which FRM.PUSH of the bytes `p` leaves a state in BUILD with room for them. -/
def State.pushed (p : List Byte) (s : State) : State :=
  { s with
    crc := crcFold s.crc p, pn := BitVec.ofNat 8 (s.payload ++ p).length, pb := Memory.ofBytes 0 (s.payload ++ p),
    rsp := s.rsp ++ List.replicate p.length 0x00000#19 }

theorem State.pushed_nil {s : State} (hfill : s.BufferFilled) : s.pushed [] = s := by
  simp [State.pushed, crcFold, ← hfill.pb_eq, hfill.length_payload]

/-- The payload after the pushes. -/
theorem State.payload_pushed {s : State} {p : List Byte} (room : (s.payload ++ p).length ≤ 255) :
    (s.pushed p).payload = s.payload ++ p :=
  State.payload_of_pb (toNat_ofNat_of_le room).symm rfl

theorem State.pushed_cons {s : State} {b : Byte} {p : List Byte} (room : (s.payload ++ [b]).length ≤ 255) :
    (s.pushed [b]).pushed p = s.pushed (b :: p) := by
  have payload := State.payload_pushed room
  rw [State.pushed, payload]
  simp [State.pushed, crcFold, List.replicate_succ]

/-- One FRM.PUSH below the limit. -/
theorem exec_frmPush_build {s : State} (hfill : s.BufferFilled) (hb : s.ph = .build)
    (room : s.payload.length < s.cfg.maxPayload.val) (b : Byte) : exec (.frmPush b) s = .next (s.pushed [b]) := by
  rw [hfill.length_payload] at room
  have room' := pn_lt_of_room room
  have hpb : (State.appendByte b { s with crc := crcStep s.crc b }).pb = Memory.ofBytes 0 (s.payload ++ [b]) :=
    hfill.appendByte_pb room' b
  have hpn : s.pn + 1#8 = BitVec.ofNat 8 (s.payload ++ [b]).length := by
    rw [hfill.length_append room' b, BitVec.ofNat_toNat, BitVec.setWidth_eq]
  rw [exec_frmPush_room hb room b, State.pushed, ← hpb, ← hpn]
  rfl

/-- A run of FRM.PUSH with room for its bytes answers OK to each and appends them. -/
theorem execAll_map_frmPush {s : State} (hI : s.Inv) (hb : s.ph = .build) {p : List Byte}
    (room : s.payload.length + p.length ≤ s.cfg.maxPayload.val) : execAll (p.map .frmPush) s = .next (s.pushed p) := by
  induction p generalizing s with
  | nil => rw [State.pushed_nil hI.filled]; rfl
  | cons b p ih =>
    rw [List.length_cons] at room
    have first := exec_frmPush_build hI.filled hb (by omega) b
    have limit := s.cfg.maxPayload.isLt
    have fits : (s.payload ++ [b]).length ≤ 255 := by rw [List.length_append, List.length_singleton]; omega
    rw [List.map_cons, execAll_cons_of_next first, ih ((exec_executes first).inv hI) hb, State.pushed_cons fits]
    rw [State.payload_pushed fits, List.length_append, List.length_singleton]
    exact (by omega : s.payload.length + 1 + p.length ≤ s.cfg.maxPayload.val)

/-- The state in which `FRM.RAW p` leaves phase IDLE. -/
def State.rawFrozen (p : List Byte) (s : State) : State :=
  { s with
    crc := crc16Raw s.cfg p, ph := .send, pn := BitVec.ofNat 8 p.length, pb := Memory.ofBytes 0 p, fi := 0#9,
    rsp := s.rsp ++ List.replicate (p.length + 2) 0x00000#19 }

/-- R58: `FRM.RAW` of 1 to `MAX_PAYLOAD` bytes from phase IDLE. -/
theorem execAll_frmRaw {s : State} (hI : s.Inv) (hi : s.ph = .idle) {p : List Byte} (hmin : 1 ≤ p.length)
    (hmax : p.length ≤ s.cfg.maxPayload.val) : execAll (frmRaw p) s = .next (s.rawFrozen p) := by
  have limit := s.cfg.maxPayload.isLt
  have begun : exec .frmBegin s =
      .next (State.respondOk (State.setPn 0#8 { s with ph := .build, crc := s.cfg.crcInit })) :=
    commandStep_run (by simp [hi]) (by simp [hi]) _
  have pushes := execAll_map_frmPush (p := p) ((exec_executes begun).inv hI) rfl (by simpa [State.payload] using hmax)
  rw [frmRaw, execAll_cons_of_next begun, execAll_append_of_next pushes,
    execAll_cons_of_next (exec_frmSend_filled rfl ?filled)]
  case filled =>
    intro zero
    have held := congrArg BitVec.toNat zero
    simp [State.pushed, State.payload] at held
    omega
  · have replies : 0x00000#19 :: (List.replicate p.length 0x00000#19 ++ [0x00000#19]) =
        List.replicate (p.length + 2) 0x00000#19 := by
      rw [← List.replicate_succ', ← List.replicate_succ]
    simp [execAll, State.rawFrozen, State.pushed, State.payload, crc16Raw, State.respondOk, State.respond, rspWord, okCode,
      replies]

/-- The frame frozen by `FRM.RAW p` has the payload `p`. -/
theorem State.rawFrozen_payload {s : State} {p : List Byte} (hmax : p.length ≤ 255) : (s.rawFrozen p).payload = p :=
  State.payload_of_pb (toNat_ofNat_of_le hmax).symm rfl

theorem State.rawFrozen_inv {s : State} {p : List Byte} (hmin : 1 ≤ p.length) (hmax : p.length ≤ 255) :
    (s.rawFrozen p).Inv := by
  have hpn : p.length = (s.rawFrozen p).pn.toNat := (toNat_ofNat_of_le hmax).symm
  have hcrc : (s.rawFrozen p).crc = crc16Raw s.cfg (s.rawFrozen p).payload := by rw [State.rawFrozen_payload hmax]; rfl
  exact ⟨State.bufferFilled_of_bytes hpn rfl, fun hp => (by cases hp), fun hp => (by cases hp),
    fun _ => ⟨hpn ▸ hmin, Nat.zero_le _, hcrc⟩⟩

/-- Settles O38: `FRM.RAW` freezes the frame of its bytes, which TX.EMIT then puts on TX. -/
theorem rawPayloadIsTransmitted : Obligations.RawPayloadIsTransmitted := by
  intro s p hI hi hmin hmax
  have limit := s.cfg.maxPayload.isLt
  have fits : p.length ≤ 255 := by omega
  have hpn : (s.rawFrozen p).pn.toNat = p.length := toNat_ofNat_of_le fits
  have emitted := emitTimes_of_frozen (k := p.length + 5) (State.rawFrozen_inv (s := s) hmin fits) rfl
    (by rw [hpn]; exact Nat.zero_add _)
  rw [State.rawFrozen_payload fits] at emitted
  exact ⟨_, _, execAll_frmRaw hI hi hmin hmax, rfl, rfl, rfl, emitted, rfl, rfl⟩

/-- Settles O52: both freeze the frame of `duty_payload(d)`. -/
theorem cmdDutyEqualsRawSequence : Obligations.CmdDutyEqualsRawSequence := by
  intro s d hI hi hd hmax
  have five : (dutyPayload s.cfg d).length = 5 := rfl
  refine ⟨_, _, exec_cmdDuty_idle hi hd, execAll_frmRaw hI hi (by omega) (by omega), ?_⟩
  rw [State.rawFrozen, ← State.dutyFrozen_pb hI hi d]
  rfl

end Sys2Proof.Machine
end

section
/-! The CRC generator as a linear map over GF(2): its forms by byte table and by single bits (R66, R68). -/

namespace Sys2Proof.Machine

/-! ## Shift steps -/

theorem xor_xor_xor_comm {n : Nat} (a b c d : BitVec n) : (a ^^^ b) ^^^ (c ^^^ d) = (a ^^^ c) ^^^ (b ^^^ d) := by ac_rfl

/-- A shift step adds the polynomial where the bit shifted out was 1. -/
theorem crcShift_eq (c : BitVec 16) : crcShift c = (c <<< 1) ^^^ (if c.getLsbD 15 then Config.crcPoly else 0#16) := by
  rw [crcShift]
  split
  · rfl
  · exact BitVec.xor_zero.symm

theorem crcShift_of_low {c : BitVec 16} (h : c.getLsbD 15 = false) : crcShift c = c <<< 1 := by
  rw [crcShift, if_neg (by simp only [h, Bool.false_eq_true, not_false_eq_true])]

/-- R68 (b): a shift step is linear, since the bit shifted out is. -/
theorem crcShift_xor (c d : BitVec 16) : crcShift (c ^^^ d) = crcShift c ^^^ crcShift d := by
  have out : (if c.getLsbD 15 ^^ d.getLsbD 15 then Config.crcPoly else 0#16) =
      (if c.getLsbD 15 then Config.crcPoly else 0#16) ^^^ (if d.getLsbD 15 then Config.crcPoly else 0#16) := by
    cases c.getLsbD 15 <;> cases d.getLsbD 15 <;> rfl
  rw [crcShift_eq, crcShift_eq, crcShift_eq, BitVec.getLsbD_xor, BitVec.shiftLeft_xor_distrib, out, xor_xor_xor_comm]

theorem crcShifts_xor (k : Nat) (c d : BitVec 16) : crcShifts k (c ^^^ d) = crcShifts k c ^^^ crcShifts k d := by
  induction k generalizing c d with
  | zero => rfl
  | succ k ih => rw [crcShifts, crcShift_xor, ih]; rfl

theorem crcShifts_add (j k : Nat) (c : BitVec 16) : crcShifts (j + k) c = crcShifts k (crcShifts j c) := by
  induction j generalizing c with
  | zero => rw [Nat.zero_add]; rfl
  | succ j ih => rw [Nat.succ_add]; exact ih (crcShift c)

theorem crcShifts_zero_word (k : Nat) : crcShifts k 0#16 = 0#16 := by
  induction k with
  | zero => rfl
  | succ k ih => exact ih

/-- While no 1 is shifted out, shift steps are a shift. -/
theorem crcShifts_of_lt {k : Nat} {c : BitVec 16} (h : c.toNat * 2 ^ k < 2 ^ 16) : crcShifts k c = c <<< k := by
  induction k generalizing c with
  | zero => simp [crcShifts]
  | succ k ih =>
    have power : 1 ≤ 2 ^ k := Nat.one_le_two_pow
    rw [pow_succ] at h
    have low : c.toNat < 2 ^ 15 := by nlinarith
    have shifted : (c <<< 1).toNat = c.toNat * 2 := by
      rw [BitVec.toNat_shiftLeft, Nat.shiftLeft_eq, Nat.mod_eq_of_lt (by omega)]
    rw [crcShifts, crcShift_of_low (Nat.testBit_lt_two_pow low), ih (by rw [shifted]; linarith), ← BitVec.shiftLeft_add,
      Nat.add_comm]

/-! ## Bytes -/

/-- R68 (b): `crc_step` is linear in both arguments together. -/
theorem crcStep_xor (c d : BitVec 16) (a b : Byte) : crcStep (c ^^^ d) (a ^^^ b) = crcStep c a ^^^ crcStep d b := by
  rw [crcStep, crcStep, crcStep, ← crcShifts_xor, BitVec.setWidth_xor, BitVec.shiftLeft_xor_distrib]
  rw [xor_xor_xor_comm]

theorem crcStep_zero : crcStep 0#16 0#8 = 0#16 := crcShifts_zero_word 8

/-- Zero bytes leave the accumulator 0. -/
theorem crcFold_replicate_zero (k : Nat) : crcFold 0#16 (List.replicate k 0#8) = 0#16 := by
  induction k with
  | zero => rfl
  | succ k ih => rw [List.replicate_succ, crcFold, crcStep_zero, ih]

/-- Settles O18: zero bytes in front of a message leave the accumulator 0, where the message then starts. -/
theorem crcIsLinearAndIgnoresLeadingZeros : Obligations.CrcIsLinearAndIgnoresLeadingZeros := by
  refine ⟨crcStep_xor, crcStep_zero, fun cfg k m hinit => ?_⟩
  rw [crc16Raw, crc16Raw, crc16Raw, hinit, crcFold_append, crcFold_replicate_zero]
  exact ⟨rfl, rfl⟩

/-- A word is its low byte and its high byte in place. -/
theorem word_eq_lo_xor_hi (c : BitVec 16) : c = (loByte c).setWidth 16 ^^^ ((hiByte c).setWidth 16 <<< 8) := by
  apply BitVec.eq_of_getLsbD_eq
  intro i hi
  simp only [loByte, hiByte, BitVec.getLsbD_xor, BitVec.getLsbD_setWidth, BitVec.getLsbD_shiftLeft,
    BitVec.getLsbD_extractLsb']
  by_cases h : i < 8
  · simp [h, hi]
  · have shifted : i - 8 < 8 := by omega
    have back : 8 + (i - 8) = i := by omega
    have inside : i - 8 < 16 := by omega
    simp [h, hi, shifted, back, inside]

theorem shiftLeft_eight (c : BitVec 16) : (loByte c).setWidth 16 <<< 8 = c <<< 8 := by
  apply BitVec.eq_of_getLsbD_eq
  intro i hi
  simp only [loByte, BitVec.getLsbD_setWidth, BitVec.getLsbD_shiftLeft, BitVec.getLsbD_extractLsb']
  by_cases h : i < 8
  · simp [h]
  · have shifted : i - 8 < 8 := by omega
    have inside : i - 8 < 16 := by omega
    simp [h, hi, shifted, inside]

/-- Eight shift steps of a byte drop no 1. -/
theorem crcShifts_eight_byte (b : Byte) : crcShifts 8 (b.setWidth 16) = b.setWidth 16 <<< 8 :=
  crcShifts_of_lt (by rw [BitVec.toNat_setWidth, Nat.mod_eq_of_lt (by omega)]; omega)

/-- R68 (d): the low byte is shifted up, the high byte meets the message byte in the table. -/
theorem crcStep_eq_table (c : BitVec 16) (b : Byte) : crcStep c b = (c <<< 8) ^^^ crcStep 0#16 (hiByte c ^^^ b) := by
  have split : c ^^^ (b.setWidth 16 <<< 8) =
      (loByte c).setWidth 16 ^^^ (0#16 ^^^ ((hiByte c ^^^ b).setWidth 16 <<< 8)) := by
    conv_lhs => rw [word_eq_lo_xor_hi c]
    rw [BitVec.zero_xor, BitVec.setWidth_xor, BitVec.shiftLeft_xor_distrib, BitVec.xor_assoc]
  rw [crcStep, split, crcShifts_xor, crcShifts_eight_byte, shiftLeft_eight]
  rfl

/-- Settles O19: the table form, and three entries by evaluation. -/
theorem crcTableForm : Obligations.CrcTableForm :=
  ⟨crcStep_eq_table, by decide +kernel, by decide +kernel, by decide +kernel⟩

/-- The high byte of an accumulator as the next message byte cancels in the table. -/
theorem crcStep_hiByte (c : BitVec 16) : crcStep c (hiByte c) = c <<< 8 := by
  rw [crcStep_eq_table, BitVec.xor_self, crcStep_zero, BitVec.xor_zero]

theorem hiByte_shiftLeft_eight (c : BitVec 16) : hiByte (c <<< 8) = loByte c := by
  apply BitVec.eq_of_getLsbD_eq
  intro i hi
  have inside : 8 + i < 16 := by omega
  simp only [hiByte, loByte, BitVec.getLsbD_extractLsb', BitVec.getLsbD_shiftLeft]
  simp [hi, inside]

/-- The two bytes of an accumulator, high byte first, bring it to 0. -/
theorem crcFold_own_bytes (c : BitVec 16) : crcFold c [hiByte c, loByte c] = 0#16 := by
  rw [crcFold, crcStep_hiByte, crcFold, ← hiByte_shiftLeft_eight, crcStep_hiByte, ← BitVec.shiftLeft_add]
  exact BitVec.shiftLeft_eq_zero (by decide)

/-- Settles O20: the checksum appended is the accumulator's own two bytes. -/
theorem crcResidueIsZero : Obligations.CrcResidueIsZero := by
  intro cfg m _ hxor
  have plain : crc16 cfg m = crc16Raw cfg m := by rw [crc16, hxor, BitVec.xor_zero]
  rw [plain, crc16Raw, crc16Raw, crcFold_append]
  exact crcFold_own_bytes _

/-! ## The bit-serial form (R66) -/

/-- A message bit enters the register by XOR, since the shift left a 0 in bit 0. -/
theorem crcSerialBit_eq (c : BitVec 16) (x : Bool) :
    crcSerialBit c x = crcShift c ^^^ (BitVec.ofBool x).setWidth 16 := by
  have entered : (c <<< 1) ||| (BitVec.ofBool x).setWidth 16 = (c <<< 1) ^^^ (BitVec.ofBool x).setWidth 16 := by
    apply BitVec.eq_of_getLsbD_eq
    intro i _
    cases i <;> simp
  simp only [crcSerialBit, crcShift, entered]
  split
  · rw [BitVec.xor_assoc, BitVec.xor_comm _ Config.crcPoly, ← BitVec.xor_assoc]
  · rfl

/-- What the register held before some bits, shifted, is added to what the bits alone leave. -/
theorem foldl_crcSerialBit (bits : List Bool) (c : BitVec 16) :
    bits.foldl crcSerialBit c = crcShifts bits.length c ^^^ bits.foldl crcSerialBit 0#16 := by
  induction bits generalizing c with
  | nil => simp [crcShifts]
  | cons x bits ih =>
    have zero : crcShift 0#16 = 0#16 := rfl
    rw [List.foldl_cons, List.foldl_cons, ih, ih (crcSerialBit 0#16 x), crcSerialBit_eq, crcSerialBit_eq, zero,
      BitVec.zero_xor, crcShifts_xor, BitVec.xor_assoc]
    rfl

/-- The bits of one byte, shifted into a register of zero, are that byte. -/
theorem foldl_crcSerialBit_byteBits (b : Byte) : (byteBits b).foldl crcSerialBit 0#16 = b.setWidth 16 := by
  revert b; decide +kernel

/-- Zero bits are shift steps. -/
theorem foldl_crcSerialBit_zeros (n : Nat) (c : BitVec 16) :
    (List.replicate n false).foldl crcSerialBit c = crcShifts n c := by
  induction n generalizing c with
  | zero => rfl
  | succ n ih =>
    have shift : crcSerialBit c false = crcShift c := by rw [crcSerialBit_eq]; exact BitVec.xor_zero
    rw [List.replicate_succ, List.foldl_cons, shift, ih]
    rfl

/-- The byte-wise accumulator is sixteen shift steps ahead of the bit-serial register. -/
theorem crcFold_crcShifts (m : List Byte) (c : BitVec 16) :
    crcFold (crcShifts 16 c) m = crcShifts 16 ((m.flatMap byteBits).foldl crcSerialBit c) := by
  induction m generalizing c with
  | nil => rfl
  | cons b m ih =>
    have len : (byteBits b).length = 8 := rfl
    have byte : crcStep (crcShifts 16 c) b = crcShifts 16 ((byteBits b).foldl crcSerialBit c) :=
      calc crcStep (crcShifts 16 c) b
          = crcShifts 8 (crcShifts 16 c) ^^^ crcShifts 8 (b.setWidth 16 <<< 8) := crcShifts_xor 8 _ _
        _ = crcShifts (16 + 8) c ^^^ crcShifts (8 + 8) (b.setWidth 16) := by
          rw [← crcShifts_eight_byte, crcShifts_add 16 8 c, crcShifts_add 8 8 (b.setWidth 16)]
        _ = crcShifts 16 (crcShifts 8 c ^^^ b.setWidth 16) := by rw [crcShifts_xor, ← crcShifts_add 8 16]
        _ = crcShifts 16 ((byteBits b).foldl crcSerialBit c) := by
          rw [foldl_crcSerialBit (byteBits b), foldl_crcSerialBit_byteBits, len]
    rw [List.flatMap_cons, List.foldl_append, ← ih, crcFold, byte]

/-- Settles O21: from a register of zero, sixteen zero bits after the message catch up with the byte-wise form. -/
theorem crcEqualsBitSerialForm : Obligations.CrcEqualsBitSerialForm := by
  intro cfg m hinit
  rw [crc16Raw, hinit, crcSerial, List.foldl_append, foldl_crcSerialBit_zeros, ← crcFold_crcShifts, crcShifts_zero_word]

end Sys2Proof.Machine
end

section
/-! The CRC as a remainder of polynomials over GF(2) (R66). -/

open Polynomial

namespace Sys2Proof.Machine

/-- A bit as a coefficient. -/
noncomputable def bitPoly (b : Bool) : (ZMod 2)[X] := if b then 1 else 0

/-- Horner's rule: one more bit below those read so far. -/
noncomputable def hornerStep (p : (ZMod 2)[X]) (b : Bool) : (ZMod 2)[X] := p * X + bitPoly b

/-- A word as a polynomial, bit `i` the coefficient of `x^i`. -/
noncomputable def wordPoly (c : BitVec 16) : (ZMod 2)[X] := ∑ i ∈ Finset.range 16, bitPoly (c.getLsbD i) * X ^ i

/-- The polynomial of the CRC, x^16 + x^12 + x^5 + 1. -/
noncomputable def crcPolynomial : (ZMod 2)[X] := X ^ 16 + X ^ 12 + X ^ 5 + 1

theorem bitPoly_xor (a b : Bool) : bitPoly (a ^^ b) = bitPoly a + bitPoly b := by
  have char2 : (1 : (ZMod 2)[X]) + 1 = 0 := CharTwo.add_self_eq_zero 1
  cases a <;> cases b <;> simp [bitPoly, char2]

theorem wordPoly_xor (c d : BitVec 16) : wordPoly (c ^^^ d) = wordPoly c + wordPoly d := by
  simp only [wordPoly, BitVec.getLsbD_xor, bitPoly_xor, add_mul, Finset.sum_add_distrib]

/-- A word has no coefficient at x^16 and above. -/
theorem wordPoly_degree_lt (c : BitVec 16) : (wordPoly c).degree < 16 := by
  refine mem_degreeLT.mp (Submodule.sum_mem _ fun i hi => mem_degreeLT.mpr ?_)
  have hi : i < 16 := Finset.mem_range.mp hi
  cases c.getLsbD i with
  | false =>
    rw [bitPoly, if_neg Bool.false_ne_true, zero_mul, degree_zero]
    exact WithBot.bot_lt_coe 16
  | true => simpa [bitPoly] using hi

theorem crcPolynomial_degree : crcPolynomial.degree = 16 := by
  unfold crcPolynomial; compute_degree!

theorem crcPolynomial_monic : crcPolynomial.Monic := by
  unfold crcPolynomial; monicity!

/-- A shift is a product with x, but for the bit shifted out. -/
theorem wordPoly_shiftLeft_one (c : BitVec 16) :
    wordPoly (c <<< 1) = wordPoly c * X + bitPoly (c.getLsbD 15) * X ^ 16 := by
  have low : ∀ i ∈ Finset.range 15,
      bitPoly ((c <<< 1).getLsbD (i + 1)) * X ^ (i + 1) = bitPoly (c.getLsbD i) * X ^ i * X := by
    intro i hi
    have hi : i + 1 < 16 := by have := Finset.mem_range.mp hi; omega
    rw [BitVec.getLsbD_shiftLeft, pow_succ, mul_assoc]
    simp [hi]
  have bottom : bitPoly ((c <<< 1).getLsbD 0) = 0 := by simp [bitPoly]
  have product : wordPoly c * X =
      ∑ i ∈ Finset.range 15, bitPoly (c.getLsbD i) * X ^ i * X + bitPoly (c.getLsbD 15) * X ^ 16 := by
    rw [wordPoly, Finset.sum_range_succ, add_mul, Finset.sum_mul, mul_assoc, ← pow_succ]
  rw [product, add_assoc, CharTwo.add_self_eq_zero, add_zero, wordPoly, Finset.sum_range_succ', Finset.sum_congr rfl low, bottom, zero_mul,
    add_zero]

/-- The low sixteen coefficients of the CRC's polynomial are `CRC_POLY` (R65). -/
theorem wordPoly_crcPoly : wordPoly Config.crcPoly = X ^ 12 + X ^ 5 + 1 := by
  simp [wordPoly, Finset.sum_range_succ, bitPoly, Config.crcPoly]
  ring

theorem wordPoly_bit (x : Bool) : wordPoly ((BitVec.ofBool x).setWidth 16) = bitPoly x := by
  cases x <;> simp [wordPoly, bitPoly]

/-- A step of the bit-serial register is Horner's rule, less the CRC's polynomial where a 1 was shifted out. -/
theorem wordPoly_crcSerialBit (c : BitVec 16) (x : Bool) :
    wordPoly (crcSerialBit c x) = hornerStep (wordPoly c) x - bitPoly (c.getLsbD 15) * crcPolynomial := by
  have out : wordPoly (if c.getLsbD 15 then Config.crcPoly else 0#16) = bitPoly (c.getLsbD 15) * (X ^ 12 + X ^ 5 + 1) := by
    cases c.getLsbD 15
    · simp [wordPoly, bitPoly]
    · simp [wordPoly_crcPoly, bitPoly]
  rw [crcSerialBit_eq, crcShift_eq, wordPoly_xor, wordPoly_xor, wordPoly_shiftLeft_one, wordPoly_bit, out, hornerStep,
    crcPolynomial, CharTwo.sub_eq_add]
  ring

/-- So the register is the polynomial of the bits read so far, but for a multiple of the CRC's polynomial. -/
theorem crcPolynomial_dvd_foldl (bits : List Bool) {p : (ZMod 2)[X]} {c : BitVec 16} (h : crcPolynomial ∣ p - wordPoly c) :
    crcPolynomial ∣ bits.foldl hornerStep p - wordPoly (bits.foldl crcSerialBit c) := by
  induction bits generalizing p c with
  | nil => exact h
  | cons x bits ih =>
    refine ih ?_
    have step : hornerStep p x - wordPoly (crcSerialBit c x) =
        (p - wordPoly c) * X + bitPoly (c.getLsbD 15) * crcPolynomial := by
      rw [wordPoly_crcSerialBit, hornerStep, hornerStep]; ring
    rw [step]
    exact dvd_add (h.mul_right X) (dvd_mul_left _ _)

theorem foldl_hornerStep_zeros (n : Nat) (p : (ZMod 2)[X]) : (List.replicate n false).foldl hornerStep p = p * X ^ n := by
  induction n generalizing p with
  | zero => simp
  | succ n ih =>
    have zero : hornerStep p false = p * X := by simp [hornerStep, bitPoly]
    rw [List.replicate_succ, List.foldl_cons, zero, ih, pow_succ', mul_assoc]

/-- The bits of a word, top bit first, read by Horner's rule. -/
theorem foldl_hornerStep_word (c : BitVec 16) :
    (byteBits (hiByte c) ++ byteBits (loByte c)).foldl hornerStep 0 = wordPoly c := by
  simp [byteBits, hiByte, loByte, hornerStep, wordPoly, Finset.sum_range_succ]
  ring

/-- Settles O22: the bit-serial register holds the polynomial of the message and sixteen zero bits up to a multiple of the
CRC's polynomial, and it has no coefficient at x^16 and above. -/
theorem crcIsPolynomialRemainder : Obligations.CrcIsPolynomialRemainder := by
  intro cfg m hinit
  change (byteBits _ ++ byteBits _).foldl hornerStep 0 = ((m.flatMap byteBits).foldl hornerStep 0 * X ^ 16) %ₘ crcPolynomial
  have read := crcPolynomial_dvd_foldl (m.flatMap byteBits ++ List.replicate 16 false) (p := 0) (c := 0#16)
    (by simp [wordPoly, bitPoly])
  rw [List.foldl_append, foldl_hornerStep_zeros] at read
  rw [foldl_hornerStep_word, crcEqualsBitSerialForm cfg m hinit, modByMonic_eq_of_dvd_sub crcPolynomial_monic read]
  have degree := (wordPoly_degree_lt (crcSerial m)).trans_eq crcPolynomial_degree.symm
  exact ((modByMonic_eq_self_iff crcPolynomial_monic).mpr degree).symm

end Sys2Proof.Machine
end

section
/-! `ScaleFn` for both readings of the product as one integer function of the exact product `M / 2^t`, and the properties of
R103 and R104 read off it. -/

namespace Sys2Proof.Machine

/-! ## The magnitude of ScaleFn -/

/-- How many low bits of the product a reading rounds away before it truncates: those beyond 53 significant bits, or none. -/
def roundingBits (reading : ScaleReading) (M : Nat) : Nat :=
  match reading with
  | .roundedProduct => M.log2 - 52
  | .exactProduct => 0
  | .table _ => M.log2 - 52

/-- The magnitude of `ScaleFn` for the exact product `M / 2^t`. -/
def magnitude (reading : ScaleReading) (M t : Nat) : Nat :=
  roundHalfEven M (roundingBits reading M) >>> (t - roundingBits reading M)

/-- A product below 2^31 has no more than 31 bits before the binary point, so not all its fraction bits are rounded away. -/
theorem roundingBits_lt (reading : ScaleReading) {M t : Nat} (ht : 52 ≤ t) (hM : M < 2 ^ (31 + t)) :
    roundingBits reading M < t := by
  have bits : M.log2 - 52 < t := by
    by_cases h0 : M = 0
    · rw [h0, Nat.log2_zero]; omega
    · have := (Nat.log2_lt h0).mpr hM
      omega
  cases reading with
  | roundedProduct | table => exact bits
  | exactProduct => exact (by omega : 0 < t)

section
variable {reading : ScaleReading} {M t : Nat}

/-- The magnitude reaches `k` from half a unit of the last place below it on. -/
theorem le_magnitude_iff (h : roundingBits reading M < t) (k : Nat) :
    k ≤ magnitude reading M t ↔ 2 * (k * 2 ^ t) ≤ 2 * M + 2 ^ roundingBits reading M :=
  le_roundHalfEven_shiftRight_iff h k M

/-- The magnitude is less than one above the product. -/
theorem magnitude_mul_lt (h : roundingBits reading M < t) : magnitude reading M t * 2 ^ t < M + 2 ^ t := by
  have power : 2 ^ roundingBits reading M < 2 ^ t := Nat.pow_lt_pow_right (by decide) h
  have unit : 0 < 2 ^ roundingBits reading M := by positivity
  have reached := (le_magnitude_iff h _).mp le_rfl
  omega

/-- The magnitude is less than one below the product. -/
theorem lt_magnitude_succ_mul (h : roundingBits reading M < t) : M < (magnitude reading M t + 1) * 2 ^ t := by
  have unit : 0 < 2 ^ roundingBits reading M := by positivity
  have missed := mt (le_magnitude_iff h (magnitude reading M t + 1)).mpr (by omega)
  omega

/-- A product of at most an integer has a magnitude of at most that integer. -/
theorem magnitude_le (h : roundingBits reading M < t) {k : Nat} (hM : M ≤ k * 2 ^ t) : magnitude reading M t ≤ k := by
  have below : magnitude reading M t * 2 ^ t < (k + 1) * 2 ^ t := by
    have := magnitude_mul_lt h
    rw [Nat.add_mul]; omega
  exact Nat.le_of_lt_succ (Nat.lt_of_mul_lt_mul_right below)

/-- An integer product is its own magnitude. -/
theorem magnitude_of_integer (h : roundingBits reading M < t) {k : Nat} (hM : M = k * 2 ^ t) :
    magnitude reading M t = k :=
  le_antisymm (magnitude_le h hM.le) ((le_magnitude_iff h k).mpr (by rw [hM]; exact Nat.le_add_right _ _))

/-- A product below 1 by more than half a unit of the 53rd bit has the magnitude 0. -/
theorem magnitude_eq_zero (h : roundingBits reading M < t) (hM : M * 2 ^ 54 < (2 ^ 54 - 1) * 2 ^ t) :
    magnitude reading M t = 0 := by
  have power : 0 < 2 ^ t := by positivity
  have hlog : roundingBits reading M ≤ M.log2 - 52 := by cases reading <;> simp [roundingBits]
  have missed : ¬ 1 ≤ magnitude reading M t := by
    rw [le_magnitude_iff h]
    by_cases h0 : roundingBits reading M = 0
    · rw [h0]; omega
    · have hM0 : M ≠ 0 := by rintro rfl; simp at hlog; omega
      have hbelow : M.log2 < t := (Nat.log2_lt hM0).mpr (by omega)
      obtain ⟨j, rfl⟩ : ∃ j, t = roundingBits reading M + 53 + j := ⟨t - (roundingBits reading M + 53), by omega⟩
      have unit : 2 ^ roundingBits reading M ≤ 2 ^ (roundingBits reading M + j) := Nat.pow_le_pow_right (by decide) (by omega)
      have split : 2 ^ (roundingBits reading M + 53 + j) = 2 ^ (roundingBits reading M + j) * 2 ^ 53 := by
        rw [← pow_add]; congr 1; omega
      omega
  omega

/-- The last place of a larger product is not finer, where bits are rounded away. -/
theorem roundingBits_add_le {M' t' : Nat} (h0 : roundingBits reading M ≠ 0) (hle : M * 2 ^ t' ≤ M' * 2 ^ t) :
    roundingBits reading M + t' ≤ roundingBits reading M' + t := by
  have leading (hM : M ≠ 0) : M.log2 + t' ≤ M'.log2 + t := by
    have lo : 2 ^ (M.log2 + t') ≤ M * 2 ^ t' := by rw [pow_add]; exact Nat.mul_le_mul_right _ (Nat.log2_self_le hM)
    have hi : M' * 2 ^ t < 2 ^ (M'.log2 + 1 + t) := by
      rw [pow_add]; exact Nat.mul_lt_mul_of_pos_right Nat.lt_log2_self (by positivity)
    have := (Nat.pow_lt_pow_iff_right (by decide)).mp ((lo.trans hle).trans_lt hi)
    omega
  have bits (hM : M.log2 - 52 ≠ 0) : M.log2 - 52 + t' ≤ M'.log2 - 52 + t := by
    have := leading (by rintro rfl; simp at hM)
    omega
  cases reading with
  | roundedProduct | table => exact bits h0
  | exactProduct => exact absurd rfl h0

/-- A product that is not smaller has a magnitude that is not smaller: its last place is not finer. -/
theorem magnitude_mono {M' t' : Nat} (h : roundingBits reading M < t) (h' : roundingBits reading M' < t')
    (hle : M * 2 ^ t' ≤ M' * 2 ^ t) : magnitude reading M t ≤ magnitude reading M' t' := by
  have reached := (le_magnitude_iff h _).mp (le_refl (magnitude reading M t))
  rw [le_magnitude_iff h']
  generalize magnitude reading M t = k at reached ⊢
  have power : 0 < 2 ^ t := by positivity
  refine Nat.le_of_mul_le_mul_right ?_ power
  by_cases h0 : roundingBits reading M = 0
  · -- nothing is rounded away on the left
    rw [h0] at reached
    have whole : k * 2 ^ t ≤ M := by omega
    calc 2 * (k * 2 ^ t') * 2 ^ t = 2 * (k * 2 ^ t * 2 ^ t') := by ring
      _ ≤ 2 * (M' * 2 ^ t) := Nat.mul_le_mul_left 2 ((Nat.mul_le_mul_right _ whole).trans hle)
      _ ≤ (2 * M' + 2 ^ roundingBits reading M') * 2 ^ t := by
        rw [← mul_assoc]; exact Nat.mul_le_mul_right _ (Nat.le_add_right _ _)
  · have unit : 2 ^ roundingBits reading M * 2 ^ t' ≤ 2 ^ roundingBits reading M' * 2 ^ t := by
      rw [← pow_add, ← pow_add]
      exact Nat.pow_le_pow_right (by decide) (roundingBits_add_le h0 hle)
    calc 2 * (k * 2 ^ t') * 2 ^ t = 2 * (k * 2 ^ t) * 2 ^ t' := by ring
      _ ≤ (2 * M + 2 ^ roundingBits reading M) * 2 ^ t' := Nat.mul_le_mul_right _ reached
      _ = 2 * (M * 2 ^ t') + 2 ^ roundingBits reading M * 2 ^ t' := by ring
      _ ≤ 2 * (M' * 2 ^ t) + 2 ^ roundingBits reading M' * 2 ^ t := Nat.add_le_add (Nat.mul_le_mul_left 2 hle) unit
      _ = (2 * M' + 2 ^ roundingBits reading M') * 2 ^ t := by ring

end

/-! ## The exact product as a rational number -/

/-- What log 4 asks of the parameters. -/
theorem config_wf_iff {cfg : Config} :
    cfg.wf = true ↔ 0 < cfg.dutyScale ∧ cfg.dutyScale < 2 ^ 31 ∧ cfg.scaleFn.fits = true := by
  simp only [Config.wf, Bool.and_eq_true, decide_eq_true_eq, and_assoc]

section
variable {reading : ScaleReading} {M t : Nat}

theorem magnitude_lt_product_add_one (h : roundingBits reading M < t) : (magnitude reading M t : Rat) < M / 2 ^ t + 1 := by
  have power : (0 : Rat) < 2 ^ t := by positivity
  have bound : (magnitude reading M t : Rat) * 2 ^ t < M + 2 ^ t := by exact_mod_cast magnitude_mul_lt h
  rw [← sub_lt_iff_lt_add, lt_div_iff₀ power]
  linarith

theorem product_lt_magnitude_add_one (h : roundingBits reading M < t) : (M : Rat) / 2 ^ t < magnitude reading M t + 1 := by
  have power : (0 : Rat) < 2 ^ t := by positivity
  rw [div_lt_iff₀ power]
  exact_mod_cast lt_magnitude_succ_mul h

theorem magnitude_mono_product {M' t' : Nat} (h : roundingBits reading M < t) (h' : roundingBits reading M' < t')
    (hle : (M : Rat) / 2 ^ t ≤ M' / 2 ^ t') : magnitude reading M t ≤ magnitude reading M' t' := by
  rw [div_le_div_iff₀ (by positivity) (by positivity)] at hle
  exact magnitude_mono h h' (by exact_mod_cast hle)

theorem magnitude_of_product_eq (h : roundingBits reading M < t) {k : Nat} (hk : (M : Rat) / 2 ^ t = k) :
    magnitude reading M t = k := by
  rw [div_eq_iff (by positivity)] at hk
  exact magnitude_of_integer h (by exact_mod_cast hk)

/-- The magnitude is 0 where the product is. -/
theorem magnitude_of_product_nonpos (h : roundingBits reading M < t) (hq : (M : Rat) / 2 ^ t ≤ 0) :
    magnitude reading M t = 0 := by
  have zero : (M : Rat) / 2 ^ t = (0 : Nat) := le_antisymm (by simpa using hq) (by simp; positivity)
  exact magnitude_of_product_eq h zero

end

/-- The exact product of an in-range operand and `DUTY_SCALE` is `M / 2^t` up to its sign, at most `DUTY_SCALE`. -/
theorem exists_scaledProduct {cfg : Config} {d : BitVec 64} {v : Rat} (hd : outOfRange d = false) (hv : f64Val d = some v) :
    ∃ M t : Nat, scaledProduct cfg.dutyScale d = { neg := f64Sign d, mant := M, exp := -(t : Int) } ∧ 52 ≤ t ∧ t ≤ 1074 ∧
      M ≤ cfg.dutyScale * 2 ^ t ∧ v * cfg.dutyScale = (scaledProduct cfg.dutyScale d).val := by
  obtain ⟨m, t, hx, ht, ht', hm⟩ := f64Dyad_of_inRange hd
  refine ⟨m * cfg.dutyScale, t, by rw [scaledProduct, hx], ht, ht', ?_, ?_⟩
  · rw [mul_comm]; exact Nat.mul_le_mul_left _ hm
  · have he : (f64Exp d).toNat ≤ 2046 := by
      have := mt (outOfRange_iff_fields d).mpr (by simp [hd])
      omega
    rw [f64Val_finite he] at hv
    rw [← Option.some.inj hv, Dyad.val, Dyad.val, scaledProduct]
    push_cast
    ring

/-- With the parameters of log 4, some fraction bit of the product is kept by either reading. -/
theorem roundingBits_lt_of_wf {cfg : Config} (hwf : cfg.wf = true) (reading : ScaleReading) {M t : Nat} (ht : 52 ≤ t)
    (hM : M ≤ cfg.dutyScale * 2 ^ t) : roundingBits reading M < t := by
  obtain ⟨-, hscale, -⟩ := config_wf_iff.mp hwf
  refine roundingBits_lt reading ht (hM.trans_lt ?_)
  rw [pow_add]
  exact Nat.mul_lt_mul_of_pos_right hscale (by positivity)

/-- `ScaleFn` of an operand with exact product `M / 2^t`, by either reading: the magnitude with the product's sign. -/
theorem scaleFn_eq_magnitude {cfg : Config} {d : BitVec 64} {M t : Nat} (hread : cfg.scaleFn.isProduct = true)
    (product : scaledProduct cfg.dutyScale d = { neg := f64Sign d, mant := M, exp := -(t : Int) }) (ht : t ≤ 1074)
    (h : roundingBits cfg.scaleFn M < t) :
    scaleFn cfg d = (if f64Sign d then -1 else 1) * (magnitude cfg.scaleFn M t : Int) := by
  cases hr : cfg.scaleFn with
  | roundedProduct =>
    rw [hr] at h
    simp only [scaleFn, hr, product]
    exact trunc_rne64 ht h.le
  | exactProduct =>
    simp only [scaleFn, hr, product, magnitude, roundingBits, roundHalfEven_zero, Nat.sub_zero]
    exact Dyad.trunc_of_fractionBits rfl
  | table => rw [hr] at hread; cases hread

/-- By either reading `ScaleFn` is the magnitude of the exact product `M / 2^t`, with its sign. -/
theorem exists_product {cfg : Config} {d : BitVec 64} {v : Rat} (hwf : cfg.wf = true) (hread : cfg.scaleFn.isProduct = true)
    (hd : outOfRange d = false) (hv : f64Val d = some v) :
    ∃ (sign : Int) (M t : Nat), (sign = 1 ∨ sign = -1) ∧ roundingBits cfg.scaleFn M < t ∧ M ≤ cfg.dutyScale * 2 ^ t ∧
      v * cfg.dutyScale = sign * ((M : Rat) / 2 ^ t) ∧ scaleFn cfg d = sign * (magnitude cfg.scaleFn M t : Int) := by
  obtain ⟨M, t, product, ht, ht', hM, value⟩ := exists_scaledProduct (cfg := cfg) hd hv
  have h := roundingBits_lt_of_wf hwf cfg.scaleFn ht hM
  refine ⟨if f64Sign d then -1 else 1, M, t, ?_, h, hM, ?_, scaleFn_eq_magnitude hread product ht' h⟩
  · cases f64Sign d <;> simp
  · rw [value, product, Dyad.val, zpow_neg, zpow_natCast, div_eq_mul_inv, mul_assoc]
    push_cast
    rfl

/-! ## The properties of R103 -/

/-- Settles O47: the magnitude is within one unit of the product's, with its sign. -/
theorem scaleFnBounds : Obligations.ScaleFnBounds := by
  intro cfg d v hwf hread hd hv
  obtain ⟨sign, M, t, hsign, h, hM, hprod, hscaled⟩ := exists_product hwf hread hd hv
  have hscale : (0 : Rat) < cfg.dutyScale := by exact_mod_cast (config_wf_iff.mp hwf).1
  have hq : (0 : Rat) ≤ M / 2 ^ t := by positivity
  have above := magnitude_lt_product_add_one h
  have below := product_lt_magnitude_add_one h
  have bound := magnitude_le h hM
  have zero := magnitude_of_product_nonpos h
  have ceil : (magnitude cfg.scaleFn M t : Int) ≤ ⌈(M : Rat) / 2 ^ t⌉ := by
    rw [← Int.sub_one_lt_iff, Int.lt_ceil]
    push_cast
    linarith
  have unsigned : |(sign : Rat)| = 1 := by obtain rfl | rfl := hsign <;> simp
  have size : |scaleFn cfg d| = magnitude cfg.scaleFn M t := by
    obtain rfl | rfl := hsign <;> rw [hscaled] <;> simp
  obtain ⟨lower, upper⟩ := abs_le.mp (size.trans_le (Int.ofNat_le.mpr bound))
  refine ⟨lower, upper, ?near, fun hv0 => ?nonneg, fun hv0 => ?nonpos, ?ceil⟩
  case near =>
    rw [hscaled, hprod, Int.cast_mul, Int.cast_natCast, ← mul_sub, abs_mul, unsigned, one_mul, abs_lt]
    constructor <;> linarith
  case ceil => rwa [size, hprod, abs_mul, unsigned, one_mul, abs_of_nonneg hq]
  case nonneg =>
    have product := mul_nonneg hv0 hscale.le
    rw [hprod] at product
    obtain rfl | rfl := hsign
    · omega
    · have := zero (by push_cast at product; linarith)
      omega
  case nonpos =>
    have product := mul_nonpos_of_nonpos_of_nonneg hv0 hscale.le
    rw [hprod] at product
    obtain rfl | rfl := hsign
    · have := zero (by push_cast at product; linarith)
      omega
    · omega

/-- Settles O48: an integer product is its own magnitude, and one that far below 1 has the magnitude 0. -/
theorem scaleFnExactAndSmall : Obligations.ScaleFnExactAndSmall := by
  intro cfg d v hwf hread hd hv
  obtain ⟨sign, M, t, hsign, h, -, hprod, hscaled⟩ := exists_product hwf hread hd hv
  have hq : (0 : Rat) ≤ M / 2 ^ t := by positivity
  rw [hscaled, hprod]
  refine ⟨fun n hn => ?_, fun hsmall => ?_⟩
  · have integer : (M : Rat) / 2 ^ t = ((sign * n : Int) : Rat) := by
      obtain rfl | rfl := hsign <;> push_cast at hn ⊢ <;> linarith
    have nonneg : 0 ≤ sign * n := by exact_mod_cast integer ▸ hq
    have exact' := magnitude_of_product_eq h (k := (sign * n).toNat)
      (by rw [integer]; exact_mod_cast (Int.toNat_of_nonneg nonneg).symm)
    rw [exact', Int.toNat_of_nonneg nonneg]
    obtain rfl | rfl := hsign <;> ring
  · have magnitude_small : (M : Rat) / 2 ^ t < 1 - (2 : Rat) ^ (-54 : Int) := by
      obtain rfl | rfl := hsign <;> simpa [abs_of_nonneg hq] using hsmall
    have scaled : M * 2 ^ 54 < (2 ^ 54 - 1) * 2 ^ t := by
      rw [div_lt_iff₀ (by positivity)] at magnitude_small
      have cast : (M : Rat) * 2 ^ 54 < ((2 ^ 54 - 1 : Nat) : Rat) * 2 ^ t := by
        norm_num at magnitude_small ⊢
        linarith
      exact_mod_cast cast
    rw [magnitude_eq_zero h scaled]
    simp

/-- Settles O49: the magnitude depends on the size of the product alone, and grows with it. -/
theorem scaleFnOddAndMonotone : Obligations.ScaleFnOddAndMonotone := by
  intro cfg d d' v v' hwf hread hd hd' hv hv'
  obtain ⟨sign, M, t, hsign, h, -, hprod, hscaled⟩ := exists_product hwf hread hd hv
  obtain ⟨sign', M', t', hsign', h', -, hprod', hscaled'⟩ := exists_product hwf hread hd' hv'
  have hq : (0 : Rat) ≤ M / 2 ^ t := by positivity
  have hq' : (0 : Rat) ≤ M' / 2 ^ t' := by positivity
  have zero := magnitude_of_product_nonpos h
  have zero' := magnitude_of_product_nonpos h'
  have mono := magnitude_mono_product h h'
  have mono' := magnitude_mono_product h' h
  rw [hscaled, hscaled']
  generalize magnitude cfg.scaleFn M t = n at *
  generalize magnitude cfg.scaleFn M' t' = n' at *
  generalize (M : Rat) / 2 ^ t = q at *
  generalize (M' : Rat) / 2 ^ t' = q' at *
  refine ⟨fun hneg => ?_, fun hle => ?_⟩
  · have products : (sign' : Rat) * q' = -(sign * q) := by rw [← hprod, ← hprod', hneg, neg_mul]
    obtain rfl | rfl := hsign <;> obtain rfl | rfl := hsign' <;> push_cast at products
    · have := zero (by linarith); have := zero' (by linarith); omega
    · have := mono (by linarith); have := mono' (by linarith); omega
    · have := mono (by linarith); have := mono' (by linarith); omega
    · have := zero (by linarith); have := zero' (by linarith); omega
  · have products : (sign : Rat) * q ≤ sign' * q' := by
      rw [← hprod, ← hprod']; exact mul_le_mul_of_nonneg_right hle (Nat.cast_nonneg _)
    obtain rfl | rfl := hsign <;> obtain rfl | rfl := hsign' <;> push_cast at products
    · have := mono (by linarith); omega
    · have := zero (by linarith); have := zero' (by linarith); omega
    · omega
    · have := mono' (by linarith); omega

/-! ## The payload of CMD.DUTY (R104) -/

/-- By either reading `ScaleFn` is at most `DUTY_SCALE` in magnitude. -/
theorem scaleFn_bounds {cfg : Config} {d : BitVec 64} (hwf : cfg.wf = true) (hread : cfg.scaleFn.isProduct = true)
    (hd : outOfRange d = false) : -(cfg.dutyScale : Int) ≤ scaleFn cfg d ∧ scaleFn cfg d ≤ cfg.dutyScale := by
  have he : (f64Exp d).toNat ≤ 2046 := by
    have := mt (outOfRange_iff_fields d).mpr (by simp [hd])
    omega
  obtain ⟨lower, upper, -⟩ := scaleFnBounds cfg d _ hwf hread hd (f64Val_finite he)
  exact ⟨lower, upper⟩

/-- A table answers one of its integers or the default. -/
theorem scaleTable_cases (z : Int) (d : BitVec 64) (rows : List (BitVec 64 × Int)) :
    scaleTable z d rows = z ∨ ∃ row ∈ rows, scaleTable z d rows = row.2 := by
  induction rows with
  | nil => exact .inl rfl
  | cons row rows ih =>
    rw [scaleTable]
    split
    · exact .inr ⟨row, List.mem_cons_self, rfl⟩
    · exact ih.imp_right fun ⟨r, hr, heq⟩ => ⟨r, List.mem_cons_of_mem _ hr, heq⟩

/-- Whatever function it is, `ScaleFn` has a 32-bit pattern (log 4). -/
theorem scaleFn_fits {cfg : Config} {d : BitVec 64} (hwf : cfg.wf = true) (hd : outOfRange d = false) :
    -(2 ^ 31) ≤ scaleFn cfg d ∧ scaleFn cfg d < 2 ^ 31 := by
  obtain ⟨hpos, hscale, hfits⟩ := config_wf_iff.mp hwf
  have fits_of_product {c : Config} (hc : c.dutyScale = cfg.dutyScale) (hwf : c.wf = true)
      (hread : c.scaleFn.isProduct = true) : -(2 ^ 31) ≤ scaleFn c d ∧ scaleFn c d < 2 ^ 31 := by
    have := scaleFn_bounds hwf hread hd
    omega
  cases hr : cfg.scaleFn with
  | roundedProduct | exactProduct => exact fits_of_product rfl hwf (by rw [hr]; rfl)
  | table rows =>
    have value : scaleFn cfg d = scaleTable (scaleFn { cfg with scaleFn := .roundedProduct } d) d rows := by
      simp only [scaleFn, hr]
    rw [value]
    obtain default | ⟨row, hrow, listed⟩ := scaleTable_cases (scaleFn { cfg with scaleFn := .roundedProduct } d) d rows
    · rw [default]
      exact fits_of_product (c := { cfg with scaleFn := .roundedProduct }) rfl (config_wf_iff.mpr ⟨hpos, hscale, rfl⟩) rfl
    · rw [listed]
      have fits : ∀ row ∈ rows, -(2 ^ 31) ≤ row.2 ∧ row.2 < 2 ^ 31 := by simpa [hr, ScaleReading.fits] using hfits
      exact fits row hrow

/-- `tc32` of an integer with a 32-bit pattern reads back in two's complement (R160). -/
theorem toInt_tc32 {z : Int} (h : -(2 ^ 31) ≤ z ∧ z < 2 ^ 31) : (tc32 z).toInt = z := by
  rw [tc32, BitVec.toInt_ofInt]
  exact Int.bmod_eq_of_le (by omega) (by omega)

/-- The top byte of a pattern of magnitude below 2^24 is its sign. -/
theorem tc32_top_byte {z : Int} (h : -(2 ^ 24) ≤ z ∧ z < 2 ^ 24) :
    (tc32 z).extractLsb' 24 8 = if 0 ≤ z then 0x00#8 else 0xFF#8 := by
  have pattern : (tc32 z).toNat = (z % 2 ^ 32).toNat := BitVec.toNat_ofInt z
  apply BitVec.eq_of_toNat_eq
  rw [BitVec.extractLsb'_toNat, pattern, Nat.shiftRight_eq_div_pow]
  split_ifs with hz <;> simp only [BitVec.toNat_ofNat] <;> omega

/-- Settles O50: the four bytes joined are `tc32` of `ScaleFn`, whose magnitude is at most `DUTY_SCALE`. -/
theorem dutyPayloadReadsBack : Obligations.DutyPayloadReadsBack := by
  intro cfg d hwf hd
  refine ⟨_, _, _, _, rfl, ?_, fun hread hscale => tc32_top_byte ?_⟩
  · rw [be32_join, toInt_tc32 (scaleFn_fits hwf hd)]
  · have := scaleFn_bounds hwf hread hd
    omega

end Sys2Proof.Machine
end

section
/-! `RNE64` of R102 as the nearest binary64 value: which numbers are binary64 values, and which of them lie around the exact
product. -/

namespace Sys2Proof.Machine

/-! ## The binary64 values -/

/-- The pattern with these fields (R105). -/
def f64OfFields (neg : Bool) (e : BitVec 11) (f : BitVec 52) : BitVec 64 := BitVec.ofBool neg ++ (e ++ f)

theorem f64Sign_ofFields (neg : Bool) (e : BitVec 11) (f : BitVec 52) : f64Sign (f64OfFields neg e f) = neg := by
  rw [f64Sign, f64OfFields, BitVec.getLsbD_append, if_neg (by decide)]
  cases neg <;> rfl

theorem f64OfFields_magnitude (neg : Bool) (e : BitVec 11) (f : BitVec 52) :
    (f64OfFields neg e f).extractLsb' 0 63 = e ++ f := extractLsb'_append_lo (BitVec.ofBool neg) (e ++ f)

theorem f64Exp_ofFields (neg : Bool) (e : BitVec 11) (f : BitVec 52) : f64Exp (f64OfFields neg e f) = e := by
  have slice := extractLsb'_slice (k := 63) (lo := 52) (m := 11) (s := 0) (by decide) (f64OfFields neg e f)
  rw [f64OfFields_magnitude, extractLsb'_append_hi] at slice
  exact slice.symm

theorem f64Frac_ofFields (neg : Bool) (e : BitVec 11) (f : BitVec 52) : f64Frac (f64OfFields neg e f) = f := by
  have slice := extractLsb'_slice (k := 63) (lo := 0) (m := 52) (s := 0) (by decide) (f64OfFields neg e f)
  rw [f64OfFields_magnitude, extractLsb'_append_lo] at slice
  exact slice.symm

/-- The significand is even where the fraction is. -/
theorem f64OfFields_even (neg : Bool) (e : BitVec 11) {f : BitVec 52} (h : f.toNat % 2 = 0) :
    (f64OfFields neg e f).getLsbD 0 = false := by
  have low : (f64OfFields neg e f).getLsbD 0 = f.getLsbD 0 := by
    simp only [f64OfFields, BitVec.getLsbD_append]
    simp
  rw [low, BitVec.getLsbD, Nat.testBit_zero, h]
  rfl

theorem f64Val_ofFields_zero (neg : Bool) (f : BitVec 52) :
    f64Val (f64OfFields neg 0#11 f) = some (Dyad.val { neg := neg, mant := f.toNat, exp := -1074 }) := by
  have he : (f64Exp (f64OfFields neg 0#11 f)).toNat = 0 := by rw [f64Exp_ofFields]; rfl
  rw [f64Val_finite (by omega), f64Dyad_exp_zero he, f64Sign_ofFields, f64Frac_ofFields]

theorem f64Val_ofFields_pos (neg : Bool) {e : Nat} (h1 : 1 ≤ e) (h2 : e ≤ 2046) (f : BitVec 52) :
    f64Val (f64OfFields neg (BitVec.ofNat 11 e) f) =
      some (Dyad.val { neg := neg, mant := 2 ^ 52 + f.toNat, exp := (e : Int) - 1075 }) := by
  have he : (f64Exp (f64OfFields neg (BitVec.ofNat 11 e) f)).toNat = e := by
    rw [f64Exp_ofFields, BitVec.toNat_ofNat, Nat.mod_eq_of_lt (by omega)]
  rw [f64Val_finite (by omega), f64Dyad_exp_pos (by omega), f64Sign_ofFields, f64Frac_ofFields, he]

/-- An integer with one more factor 2 stands for the same number at the next lower exponent. -/
theorem Dyad.val_double (neg : Bool) (m : Nat) (e : Int) :
    Dyad.val { neg := neg, mant := 2 * m, exp := e } = Dyad.val { neg := neg, mant := m, exp := e + 1 } := by
  simp only [Dyad.val]
  rw [zpow_add₀ (by norm_num)]
  push_cast
  ring

/-- A significand of 53 bits at an exponent from -1074 on, or a shorter one at -1074, is a binary64 value, with an even
pattern where the significand is even; rounding up to 2^53 stays one. -/
theorem exists_f64_of_normalized (neg : Bool) {k m : Nat} (hk : k ≤ 2044) (hm : m ≤ 2 ^ 53) (hnorm : 2 ^ 52 ≤ m ∨ k = 0) :
    ∃ x, f64Val x = some (Dyad.val { neg := neg, mant := m, exp := (k : Int) - 1074 }) ∧
      (m % 2 = 0 → x.getLsbD 0 = false) := by
  have frac {n : Nat} (hn : n < 2 ^ 52) : (BitVec.ofNat 52 n).toNat = n := by
    rw [BitVec.toNat_ofNat, Nat.mod_eq_of_lt hn]
  obtain hsub | hnormal | htop : m < 2 ^ 52 ∨ (2 ^ 52 ≤ m ∧ m < 2 ^ 53) ∨ m = 2 ^ 53 := by omega
  · obtain rfl : k = 0 := by omega
    refine ⟨f64OfFields neg 0#11 (BitVec.ofNat 52 m), ?_, fun heven => f64OfFields_even _ _ (by rwa [frac hsub])⟩
    rw [f64Val_ofFields_zero, frac hsub]
    rfl
  · have low : m - 2 ^ 52 < 2 ^ 52 := by omega
    refine ⟨f64OfFields neg (BitVec.ofNat 11 (k + 1)) (BitVec.ofNat 52 (m - 2 ^ 52)), ?_,
      fun heven => f64OfFields_even _ _ (by rw [frac low]; omega)⟩
    have mant : 2 ^ 52 + (m - 2 ^ 52) = m := by omega
    have exp : ((k + 1 : Nat) : Int) - 1075 = k - 1074 := by omega
    rw [f64Val_ofFields_pos neg (by omega) (by omega), frac low, mant, exp]
  · refine ⟨f64OfFields neg (BitVec.ofNat 11 (k + 2)) 0#52, ?_, fun _ => f64OfFields_even _ _ rfl⟩
    have double : m = 2 * 2 ^ 52 := by omega
    have exp : ((k + 2 : Nat) : Int) - 1075 = k - 1074 + 1 := by omega
    rw [f64Val_ofFields_pos neg (by omega) (by omega), double, Dyad.val_double, exp]
    rfl

/-- Every significand of at most 53 bits is one at some exponent: shift it up until it has 53 bits. -/
theorem exists_f64_of_lt (neg : Bool) {k m : Nat} (hk : k ≤ 2044) (hm : m < 2 ^ 53) :
    ∃ x, f64Val x = some (Dyad.val { neg := neg, mant := m, exp := (k : Int) - 1074 }) := by
  induction k generalizing m with
  | zero =>
    obtain ⟨x, hx, -⟩ := exists_f64_of_normalized neg hk hm.le (.inr rfl)
    exact ⟨x, hx⟩
  | succ k ih =>
    by_cases hnormal : 2 ^ 52 ≤ m
    · obtain ⟨x, hx, -⟩ := exists_f64_of_normalized neg hk hm.le (.inl hnormal)
      exact ⟨x, hx⟩
    · obtain ⟨x, hx⟩ := ih (m := 2 * m) (by omega) (by omega)
      refine ⟨x, hx.trans ?_⟩
      rw [Dyad.val_double]
      congr 3
      omega

/-- Every binary64 value has a significand of at most 53 bits and an exponent from -1074 on (R105). -/
theorem exists_dyad_of_f64Val {y : BitVec 64} {r : Rat} (h : f64Val y = some r) :
    ∃ (neg : Bool) (m k : Nat), m < 2 ^ 53 ∧ r = Dyad.val { neg := neg, mant := m, exp := (k : Int) - 1074 } := by
  have value : r = (f64Dyad y).val := by
    unfold f64Val at h
    split at h <;> simp_all
  have frac := (f64Frac y).isLt
  by_cases h0 : (f64Exp y).toNat = 0
  · exact ⟨f64Sign y, (f64Frac y).toNat, 0, by omega, by rw [value, f64Dyad_exp_zero h0]; rfl⟩
  · refine ⟨f64Sign y, 2 ^ 52 + (f64Frac y).toNat, (f64Exp y).toNat - 1, by omega, ?_⟩
    rw [value, f64Dyad_exp_pos (by omega)]
    congr 2
    omega

/-! ## The neighbours of a number among them -/

/-- An integer at a higher exponent is a greater integer at a lower one. -/
theorem mul_two_zpow_add (m i k : Nat) :
    (m : Rat) * 2 ^ (((k + i : Nat) : Int) - 1074) = ((m * 2 ^ i : Nat) : Rat) * 2 ^ ((k : Int) - 1074) := by
  have exponent : ((k + i : Nat) : Int) - 1074 = (i : Int) + ((k : Int) - 1074) := by push_cast; ring
  rw [exponent, zpow_add₀ (by norm_num), zpow_natCast]
  push_cast
  ring

/-- No binary64 value lies between two adjacent integers of at least 53 bits at the same exponent. -/
theorem f64_gap {m k Q j : Nat} (hm : m < 2 ^ 53) (hQ : 2 ^ 52 ≤ Q) :
    (m : Rat) * 2 ^ ((k : Int) - 1074) ≤ Q * 2 ^ ((j : Int) - 1074) ∨
      ((Q : Rat) + 1) * 2 ^ ((j : Int) - 1074) ≤ m * 2 ^ ((k : Int) - 1074) := by
  obtain hlow | hhigh := Nat.lt_or_ge k j
  · -- at a lower exponent the value is too small
    obtain ⟨i, rfl⟩ : ∃ i, j = k + (1 + i) := ⟨j - (k + 1), by omega⟩
    have small : m ≤ Q * 2 ^ (1 + i) := by
      have : 2 ^ 1 ≤ 2 ^ (1 + i) := Nat.pow_le_pow_right (by decide) (by omega)
      nlinarith
    rw [mul_two_zpow_add Q]
    exact .inl (mul_le_mul_of_nonneg_right (by exact_mod_cast small) (by positivity))
  · -- at the same exponent or a higher one it is one of the integers
    obtain ⟨i, rfl⟩ : ∃ i, k = j + i := ⟨k - j, by omega⟩
    rw [mul_two_zpow_add m]
    obtain h | h := Nat.lt_or_ge Q (m * 2 ^ i)
    · exact .inr (mul_le_mul_of_nonneg_right (by exact_mod_cast h) (by positivity))
    · exact .inl (mul_le_mul_of_nonneg_right (by exact_mod_cast h) (by positivity))

/-- The same for signed values, measured in the direction of either sign. -/
theorem f64_gap_signed (neg : Bool) {y : BitVec 64} {s : Rat} (hy : f64Val y = some s) {Q j : Nat} (hQ : 2 ^ 52 ≤ Q) :
    (if neg then -1 else 1) * s ≤ Q * 2 ^ ((j : Int) - 1074) ∨
      ((Q : Rat) + 1) * 2 ^ ((j : Int) - 1074) ≤ (if neg then -1 else 1) * s := by
  obtain ⟨neg', m, k, hm, rfl⟩ := exists_dyad_of_f64Val hy
  have hsize : (0 : Rat) ≤ m * 2 ^ ((k : Int) - 1074) := by positivity
  have hlow : (0 : Rat) ≤ Q * 2 ^ ((j : Int) - 1074) := by positivity
  have gap := f64_gap (k := k) (j := j) hm hQ
  simp only [Dyad.val]
  cases neg <;> cases neg' <;> simp only [Bool.false_eq_true, if_true, if_false, one_mul, neg_mul, neg_neg]
  · exact gap
  · exact .inl (by linarith)
  · exact .inl (by linarith)
  · exact gap

/-- The nearer of two neighbours is nearest among the numbers that do not lie between them, and the only nearest one unless
both are as near. -/
theorem nearest_of_gap {a L U p s : Rat} (hL : L ≤ a) (hU : a ≤ U) (gap : s ≤ L ∨ U ≤ s)
    (choice : (p = L ∧ a - L ≤ U - a) ∨ (p = U ∧ U - a ≤ a - L)) :
    |a - p| ≤ |a - s| ∧ (|a - p| = |a - s| → s = p ∨ a - L = U - a) := by
  obtain ⟨rfl, near⟩ | ⟨rfl, near⟩ := choice
  · rw [abs_of_nonneg (by linarith)]
    obtain below | above := gap
    · rw [abs_of_nonneg (by linarith)]
      exact ⟨by linarith, fun h => .inl (by linarith)⟩
    · rw [abs_of_nonpos (by linarith)]
      exact ⟨by linarith, fun h => .inr (by linarith)⟩
  · rw [abs_of_nonpos (by linarith)]
    obtain below | above := gap
    · rw [abs_of_nonneg (by linarith)]
      exact ⟨by linarith, fun h => .inr (by linarith)⟩
    · rw [abs_of_nonpos (by linarith)]
      exact ⟨by linarith, fun h => .inl (by linarith)⟩

/-- Rounding goes to the nearer of the two integers around `n / 2^r`. -/
theorem roundHalfEven_cases (n r : Nat) :
    (roundHalfEven n r = n / 2 ^ r ∧ 2 * (n % 2 ^ r) ≤ 2 ^ r) ∨
      (roundHalfEven n r = n / 2 ^ r + 1 ∧ 2 ^ r ≤ 2 * (n % 2 ^ r)) := by
  rw [roundHalfEven, Nat.shiftRight_eq_div_pow]
  split_ifs with below above
  · exact .inl ⟨rfl, by omega⟩
  · exact .inr ⟨rfl, by omega⟩
  · obtain h | h := Nat.mod_two_eq_zero_or_one (n / 2 ^ r)
    · exact .inl ⟨by omega, by omega⟩
    · exact .inr ⟨by omega, by omega⟩

/-- A tie goes to the even one. -/
theorem roundHalfEven_even_of_tie {n r : Nat} (h : 2 * (n % 2 ^ r) = 2 ^ r) : roundHalfEven n r % 2 = 0 := by
  rw [roundHalfEven, Nat.shiftRight_eq_div_pow]
  rw [if_neg (by omega), if_neg (by omega)]
  omega

/-! ## The integer part -/

/-- `trunc` is the integer part of the number, toward zero. -/
theorem Dyad.truncRat_val {x : Dyad} {t : Nat} (h : x.exp = -(t : Int)) : truncRat x.val = x.trunc := by
  have value : x.val = (if x.neg then -1 else 1) * ((x.mant : Rat) / (2 ^ t : Nat)) := by
    rw [Dyad.val, h, zpow_neg, zpow_natCast, Nat.cast_pow, Nat.cast_ofNat, div_eq_mul_inv, mul_assoc]
  have floor : ((x.mant : Rat) / (2 ^ t : Nat)).floor = ((x.mant >>> t : Nat) : Int) := by
    rw [Nat.shiftRight_eq_div_pow]
    exact Rat.floor_natCast_div_natCast _ _
  have nonneg : (0 : Rat) ≤ (x.mant : Rat) / (2 ^ t : Nat) := by positivity
  rw [Dyad.trunc_of_fractionBits h, value, truncRat]
  cases x.neg with
  | false =>
    simp only [Bool.false_eq_true, if_false, one_mul]
    rw [if_pos nonneg, floor]
  | true =>
    simp only [if_true, neg_mul, one_mul, neg_neg, floor]
    split_ifs with hneg
    · -- only zero is not below zero
      have zero : (x.mant : Rat) / (2 ^ t : Nat) = 0 := by linarith
      rw [zero] at floor
      rw [zero, ← floor]
      rfl
    · rfl

/-! ## RNE64 -/

/-- `RNE64` of a number with at most 1074 fraction bits: all but 53 bits are rounded away. -/
theorem rne64_eq (neg : Bool) {M t : Nat} (ht : t ≤ 1074) (hr : M.log2 - 52 ≤ t) :
    rne64 { neg := neg, mant := M, exp := -(t : Int) } =
      { neg := neg, mant := roundHalfEven M (M.log2 - 52), exp := -((t - (M.log2 - 52) : Nat) : Int) } := by
  by_cases hsmall : M.log2 ≤ 52
  · have fits : ulpExp { neg := neg, mant := M, exp := -(t : Int) } ≤ -(t : Int) := by simp only [ulpExp]; omega
    rw [rne64, if_pos fits, Nat.sub_eq_zero_of_le hsmall, roundHalfEven_zero, Nat.sub_zero]
  · have ulp : ulpExp { neg := neg, mant := M, exp := -(t : Int) } = -((t - (M.log2 - 52) : Nat) : Int) := by
      simp only [ulpExp]; omega
    have dropped : (-((t - (M.log2 - 52) : Nat) : Int) - -(t : Int)).toNat = M.log2 - 52 := by omega
    rw [rne64, ulp, if_neg (by simp only; omega), dropped]

/-- `n / 2^r` rounded, in units of `2^r`, is nearest to `n` among the numbers that lie outside its two neighbours. -/
theorem roundHalfEven_nearest {n r : Nat} {unit s : Rat} (hunit : 0 < unit)
    (gap : s ≤ (n / 2 ^ r : Nat) * (2 ^ r * unit) ∨ ((n / 2 ^ r : Nat) + 1) * (2 ^ r * unit) ≤ s) :
    |n * unit - roundHalfEven n r * (2 ^ r * unit)| ≤ |n * unit - s| ∧
      (|n * unit - roundHalfEven n r * (2 ^ r * unit)| = |n * unit - s| →
        s = roundHalfEven n r * (2 ^ r * unit) ∨ roundHalfEven n r % 2 = 0) := by
  have split : (n : Rat) = 2 ^ r * (n / 2 ^ r : Nat) + (n % 2 ^ r : Nat) := by
    exact_mod_cast (Nat.div_add_mod n (2 ^ r)).symm
  have hrem : n % 2 ^ r < 2 ^ r := Nat.mod_lt _ (by positivity)
  have sides := roundHalfEven_cases n r
  have tie := roundHalfEven_even_of_tie (n := n) (r := r)
  generalize roundHalfEven n r = R at *
  generalize n / 2 ^ r = Q at *
  generalize n % 2 ^ r = rem at *
  have toL : (n : Rat) * unit - Q * (2 ^ r * unit) = rem * unit := by rw [split]; ring
  have toU : ((Q : Rat) + 1) * (2 ^ r * unit) - n * unit = (2 ^ r - rem) * unit := by rw [split]; ring
  have hrem' : (0 : Rat) ≤ 2 ^ r - rem := by have : (rem : Rat) < 2 ^ r := (by exact_mod_cast hrem); linarith
  have choice : ((R : Rat) * (2 ^ r * unit) = Q * (2 ^ r * unit) ∧ rem * unit ≤ (2 ^ r - rem) * unit) ∨
      ((R : Rat) * (2 ^ r * unit) = (Q + 1) * (2 ^ r * unit) ∧ (2 ^ r - rem) * unit ≤ rem * unit) := by
    obtain ⟨rfl, near⟩ | ⟨rfl, near⟩ := sides
    · have near : 2 * (rem : Rat) ≤ 2 ^ r := by exact_mod_cast near
      exact .inl ⟨rfl, mul_le_mul_of_nonneg_right (by linarith) hunit.le⟩
    · have near : (2 : Rat) ^ r ≤ 2 * rem := by exact_mod_cast near
      exact .inr ⟨by push_cast; rfl, mul_le_mul_of_nonneg_right (by linarith) hunit.le⟩
  rw [← toL, ← toU] at choice
  have hL : 0 ≤ (rem : Rat) * unit := by positivity
  have hU := mul_nonneg hrem' hunit.le
  obtain ⟨least, unique⟩ := nearest_of_gap (by linarith) (by linarith) gap choice
  refine ⟨least, fun h => (unique h).imp_right fun equal => tie ?_⟩
  rw [toL, toU] at equal
  have middle := mul_right_cancel₀ hunit.ne' equal
  have double : 2 * (rem : Rat) = 2 ^ r := by linarith
  exact_mod_cast double

/-- A number that is rounded has 53 bits and more below them. -/
theorem quotient_bounds {M : Nat} (h : M.log2 - 52 ≠ 0) :
    2 ^ 52 ≤ M / 2 ^ (M.log2 - 52) ∧ M / 2 ^ (M.log2 - 52) < 2 ^ 53 := by
  have hM : M ≠ 0 := by rintro rfl; simp at h
  have lo := Nat.log2_self_le hM
  have hi : M < 2 ^ (M.log2 + 1) := Nat.lt_log2_self
  rw [Nat.le_div_iff_mul_le (by positivity), Nat.div_lt_iff_lt_mul (by positivity), ← pow_add, ← pow_add]
  constructor
  · rwa [show 52 + (M.log2 - 52) = M.log2 by omega]
  · rwa [show 53 + (M.log2 - 52) = M.log2 + 1 by omega]

/-- A number that is not rounded has at most 53 bits. -/
theorem lt_of_log2_le {M : Nat} (h : M.log2 - 52 = 0) : M < 2 ^ 53 :=
  Nat.lt_log2_self.trans_le (Nat.pow_le_pow_right (by decide) (by omega))

section
variable {q : Dyad} {neg : Bool} {M t : Nat} (hq : q = { neg := neg, mant := M, exp := -(t : Int) }) (ht : t ≤ 1074)
  (hr : M.log2 - 52 ≤ t)
include hq ht hr

/-- The value of `RNE64` in terms of the last place. -/
theorem rne64_val : (rne64 q).val = Dyad.val
    { neg := neg, mant := roundHalfEven M (M.log2 - 52), exp := ((M.log2 - 52 + 1074 - t : Nat) : Int) - 1074 } := by
  rw [hq, rne64_eq neg ht hr]
  congr 2
  omega

/-- `RNE64` answers a binary64 value, with an even pattern where it rounded to an even significand. -/
theorem exists_f64_of_rne64 : ∃ x, f64Val x = some (rne64 q).val ∧
    (M.log2 - 52 ≠ 0 → roundHalfEven M (M.log2 - 52) % 2 = 0 → x.getLsbD 0 = false) := by
  rw [rne64_val hq ht hr]
  by_cases h0 : M.log2 - 52 = 0
  · obtain ⟨x, hx⟩ := exists_f64_of_lt neg (k := M.log2 - 52 + 1074 - t) (by omega) (lt_of_log2_le h0)
    exact ⟨x, by rw [hx, h0, roundHalfEven_zero], fun h => absurd h0 h⟩
  · obtain ⟨lo, hi⟩ := quotient_bounds h0
    have rounded : 2 ^ 52 ≤ roundHalfEven M (M.log2 - 52) ∧ roundHalfEven M (M.log2 - 52) ≤ 2 ^ 53 := by
      obtain ⟨h, -⟩ | ⟨h, -⟩ := roundHalfEven_cases M (M.log2 - 52) <;> omega
    obtain ⟨x, hx, heven⟩ :=
      exists_f64_of_normalized neg (k := M.log2 - 52 + 1074 - t) (by omega) rounded.2 (.inl rounded.1)
    exact ⟨x, hx, fun _ => heven⟩

/-- `RNE64` answers a nearest binary64 value, the only one unless it rounded to an even significand. -/
theorem rne64_nearest {y : BitVec 64} {s : Rat} (hy : f64Val y = some s) :
    |q.val - (rne64 q).val| ≤ |q.val - s| ∧
      (|q.val - (rne64 q).val| = |q.val - s| →
        s = (rne64 q).val ∨ (M.log2 - 52 ≠ 0 ∧ roundHalfEven M (M.log2 - 52) % 2 = 0)) := by
  by_cases h0 : M.log2 - 52 = 0
  · have unrounded : rne64 q = q := by rw [hq, rne64_eq neg ht hr, h0, roundHalfEven_zero, Nat.sub_zero]
    rw [unrounded, sub_self, abs_zero]
    exact ⟨abs_nonneg _, fun h => .inl (sub_eq_zero.mp (abs_eq_zero.mp h.symm)).symm⟩
  · obtain ⟨lo, -⟩ := quotient_bounds h0
    have place : (2 : Rat) ^ (((M.log2 - 52 + 1074 - t : Nat) : Int) - 1074) = 2 ^ (M.log2 - 52) * 2 ^ (-(t : Int)) := by
      rw [← zpow_natCast, ← zpow_add₀ (by norm_num)]
      congr 1
      omega
    have gap := f64_gap_signed neg hy (j := M.log2 - 52 + 1074 - t) lo
    rw [place] at gap
    obtain ⟨least, unique⟩ := roundHalfEven_nearest (by positivity) gap
    -- both distances are measured in the direction of the sign
    have aside (a b : Rat) : |(if neg then -1 else 1) * a - b| = |a - (if neg then -1 else 1) * b| := by
      cases neg with
      | false => simp
      | true =>
        rw [← abs_neg]
        congr 1
        simp only [if_true]
        ring
    have twice (a : Rat) : (if neg then -1 else 1) * ((if neg then -1 else 1) * a) = a := by cases neg <;> simp
    rw [rne64_val hq ht hr, hq]
    simp only [Dyad.val, mul_assoc, place, aside, twice]
    exact ⟨least, fun h => (unique h).imp (fun hs => by rw [← hs, twice]) (fun heven => ⟨h0, heven⟩)⟩

/-- `trunc` of the rounded number is the integer part of its value. -/
theorem truncRat_rne64 : truncRat (rne64 q).val = (rne64 q).trunc := by
  rw [hq]
  exact Dyad.truncRat_val (by rw [rne64_eq neg ht hr])

end

/-- Settles O45: the product rounded is the nearer of its two neighbours of 53 bits, the even one of a tie, and no binary64
value lies between those. -/
theorem scaleFnTruncatesNearestProduct : Obligations.ScaleFnTruncatesNearestProduct := by
  intro cfg d v hwf hread hd hv
  obtain ⟨M, t, product, ht, ht', hM, value⟩ := exists_scaledProduct (cfg := cfg) hd hv
  have hr : M.log2 - 52 ≤ t := (roundingBits_lt_of_wf hwf .roundedProduct ht hM).le
  obtain ⟨x, hx, heven⟩ := exists_f64_of_rne64 product ht' hr
  rw [value]
  refine ⟨x, _, hx, fun y s hy => (rne64_nearest product ht' hr hy).1, fun y s hy heq => ?_, ?_⟩
  · exact ((rne64_nearest product ht' hr hy).2 heq).imp_right fun ⟨h0, h⟩ => heven h0 h
  · rw [truncRat_rne64 product ht' hr]
    simp only [scaleFn, hread]

end Sys2Proof.Machine
end
